-- ==== Sys2Proof/Word.lean ====
section
/-! DEFINITION. The word types of the block: the data byte, the 16-bit field and the timestamp. -/

namespace Sys2Proof

/-- A data value: one unsigned byte (00_scope.md R13). -/
abbrev Byte := BitVec 8

/-- A 16-bit unsigned value: the serial number, the checksums, `START` and `COUNT` (00_scope.md R15). -/
abbrev Word16 := BitVec 16

/-- A timestamp in milliseconds, carried in a 64-bit field (00_scope.md R14).
That its value lies below `2^63` is a check of `WellFormed` and an invariant of the state, not of the type. -/
abbrev Timestamp := BitVec 64

end Sys2Proof
end

