-- ==== Sys2Proof/Config.lean ====
section
/-! DEFINITION. What is fixed when the block is built: the seven constants of 10_state.md R27 as one record, the
sizes derived from them, and the free values the spec leaves unspecified. -/

namespace Sys2Proof

/-- The constants of the block, read-only and fixed when it is built (10_state.md R27, decision D3). -/
structure Config where
  /-- `MARKER`, the byte that may begin a frame (R5). -/
  marker : Byte
  /-- `MIN_PACKET_LENGTH`, used only in the scan bound (R6). -/
  minPacketLength : Nat
  /-- `MAX_PACKET_LENGTH`, used only in the overflow test (R7). -/
  maxPacketLength : Nat
  /-- `MAX_AGE_MS`, used only in the staleness test (R8). -/
  maxAgeMs : Nat
  /-- `CRC_POLY`, the reflected polynomial (R9). -/
  crcPoly : Word16
  /-- `CRC_INIT`, the register value before the first byte (R10). -/
  crcInit : Word16
  /-- `CRC_XOROUT`, zero: there is no final XOR (R11, R27). -/
  crcXorOut : Word16
  /-- The longest operand sequence of the checksum port (30_encoding.md R69; the parameter U13 of
  93_implementation_defined.md, fixed by D10). -/
  maxSeqLength : Nat
deriving DecidableEq, Repr

/-- The block as the spec builds it (00_scope.md R5 to R11). -/
def config : Config where
  marker := 0x23
  minPacketLength := 10
  maxPacketLength := 255
  maxAgeMs := 50
  crcPoly := 0xA001
  crcInit := 0xFFFF
  crcXorOut := 0x0000
  maxSeqLength := 65535

/-- `BUF_CAPACITY = MAX_PACKET_LENGTH + 1`, the storage size of the buffer (00_scope.md R12). -/
def Config.bufCapacity (c : Config) : Nat := c.maxPacketLength + 1

/-- FREE VALUE. What `BUF[i]` holds where no BYTE has written it since the reset numbered `n`: unspecified
(10_state.md R30, 93_implementation_defined.md U2 `any value`). Log entry 3. -/
opaque Config.freeByte (n i : Nat) : Byte

/-- FREE VALUE. What `T_LAST` holds after the RESET transaction numbered `n`: unspecified (10_state.md R30,
93_implementation_defined.md U3 `any value`). 63 bits wide, since the range of `T_LAST` is `0 .. 2^63 - 1`
(10_state.md R20). Log entry 4. -/
opaque Config.freeTime (n : Nat) : BitVec 63

end Sys2Proof
end

