-- ==== Sys2Proof/Syntax.lean ====
section
/-! DEFINITION. The four transactions of the block (30_encoding.md R60), and the raw requests at its input ports
that a decoder reads them from (30_encoding.md R61, R65, R69). -/

namespace Sys2Proof

/-- One transaction of the block: the rows of `spec/opcode_table.json` (30_encoding.md R60). -/
inductive Instr where
  /-- `RESET`: no operands (70_reset_and_hazards.md R230). -/
  | reset
  /-- `BYTE b, @t`: one received byte with its arrival time (41_frame_scanner.md R130). -/
  | byte (b : Byte) (t : Timestamp)
  /-- `EOS`: no operands; `DATA` and `TIME` of its word are ignored (41_frame_scanner.md R131, 30_encoding.md R63). -/
  | eos
  /-- `CRC16 seq, start, count`: one checksum request (40_checksum_engine.md R103). -/
  | crc16 (start count : Word16) (seq : List Byte)
deriving DecidableEq, Repr

/-- The three input ports: the reset input, the scanner input and the checksum port (30_encoding.md R60). -/
inductive Port where
  /-- The 1-bit reset input `RST`. -/
  | rst
  /-- The 74-bit scanner input `IN`. -/
  | inp
  /-- The checksum port `CRC`: a 32-bit word and a byte-sequence operand. -/
  | crc
deriving DecidableEq, Repr

/-- A request as it stands at an input port, before it is decoded. -/
inductive Request where
  /-- The level of the reset input `RST` (30_encoding.md R65). -/
  | rst (v : BitVec 1)
  /-- A word at the scanner input `IN` (30_encoding.md R61). -/
  | inp (w : BitVec 74)
  /-- A word at the checksum port with its operand `SEQ` (30_encoding.md R69). -/
  | crc (w : BitVec 32) (seq : List Byte)
deriving DecidableEq, Repr

/-- Why a request encodes no transaction. -/
inductive Reject where
  /-- An `IN` word whose `KIND` is `00` or `11`: `refuse(ReservedKind)` (30_encoding.md R64). -/
  | reservedKind
  /-- A BYTE word with `TIME[63] = 1`: `refuse(TimeOutOfRange)` (30_encoding.md R63). -/
  | timeOutOfRange
  /-- A checksum request whose `SEQ` is longer than the port carries: refused (93_implementation_defined.md U13). -/
  | sequenceTooLong
  /-- `RST = 0`: only the value 1 selects RESET (30_encoding.md R80). -/
  | resetNotAsserted
deriving DecidableEq, Repr

/-- The port a request stands at. -/
def Request.port : Request → Port
  | .rst _ => .rst
  | .inp _ => .inp
  | .crc _ _ => .crc

/-- The word of a request as a number, bit 0 the least significant (00_scope.md R15). -/
def Request.word : Request → Nat
  | .rst v => v.toNat
  | .inp w => w.toNat
  | .crc w _ => w.toNat

end Sys2Proof
end

