-- ==== Sys2Proof/WellFormed.lean ====
section
/-! DEFINITION. Which transactions the ports can carry: the operand ranges of 00_scope.md R14 and 30_encoding.md R69. -/

namespace Sys2Proof

/-- The timestamp lies in the range of 00_scope.md R14, `0 <= t < 2^63`: its bit 63 is 0 (30_encoding.md R61). -/
def Timestamp.inRange (t : Timestamp) : Bool := !t.getLsbD 63

/-- A transaction that the encoding of 30_encoding.md can carry. -/
def Instr.wellFormed : Instr → Bool
  | .reset => true
  | .byte _ t => Timestamp.inRange t
  | .eos => true
  | .crc16 _ _ seq => decide (seq.length ≤ config.maxSeqLength)

end Sys2Proof
end

