-- ==== Sys2Proof/Decode.lean ====
section
/-! DEFINITION. The decoder of the three input ports (30_encoding.md sections 2, 4 and 7), total and rejecting by
name; the encoder, written from the same formats; the opcode table as data; and the words of the table as the host
numbers them. -/

namespace Sys2Proof

/-! ## Fields -/

/-- `KIND = IN[73:72]` (30_encoding.md R61). -/
def inKind (w : BitVec 74) : BitVec 2 := w.extractLsb' 72 2

/-- `DATA = IN[71:64]` (30_encoding.md R61). -/
def inData (w : BitVec 74) : Byte := w.extractLsb' 64 8

/-- `TIME = IN[63:0]` (30_encoding.md R61). -/
def inTime (w : BitVec 74) : Timestamp := w.extractLsb' 0 64

/-- `START = CRC[31:16]` (30_encoding.md R69). -/
def crcStart (w : BitVec 32) : Word16 := w.extractLsb' 16 16

/-- `COUNT = CRC[15:0]` (30_encoding.md R69). -/
def crcCount (w : BitVec 32) : Word16 := w.extractLsb' 0 16

/-! ## Decoder -/

/-- The decoder of the scanner input: `KIND` selects (30_encoding.md R62, R80), a reserved `KIND` is refused (R64), a
BYTE word with `TIME[63] = 1` is refused (R63), and `DATA` and `TIME` of EOS are ignored (R63). -/
def decodeIn (w : BitVec 74) : Except Reject Instr :=
  if inKind w = 0b01#2 then
    if (inTime w).getLsbD 63 then .error .timeOutOfRange else .ok (.byte (inData w) (inTime w))
  else if inKind w = 0b10#2 then .ok .eos
  else .error .reservedKind

/-- The decoder of the checksum port: every request is CRC16 (30_encoding.md R80), with `SEQ` at most 65535 bytes (R69);
a longer sequence is outside the port and refused (93_implementation_defined.md U13). -/
def decodeCrc (w : BitVec 32) (seq : List Byte) : Except Reject Instr :=
  if seq.length ≤ config.maxSeqLength then .ok (.crc16 (crcStart w) (crcCount w) seq)
  else .error .sequenceTooLong

/-- The decoder of the reset input: the value 1 selects RESET (30_encoding.md R65, R80). -/
def decodeRst (v : BitVec 1) : Except Reject Instr :=
  if v = 1#1 then .ok .reset else .error .resetNotAsserted

/-- The decoder of the interface (30_encoding.md R80). -/
def decode : Request → Except Reject Instr
  | .rst v => decodeRst v
  | .inp w => decodeIn w
  | .crc w seq => decodeCrc w seq

/-! ## Encoder -/

/-- The `IN` word `{KIND, DATA, TIME}` (30_encoding.md R61). -/
def inWord (kind : BitVec 2) (data : Byte) (time : Timestamp) : BitVec 74 := kind ++ data ++ time

/-- The checksum port word `{START, COUNT}` (30_encoding.md R69). -/
def crcWord (start count : Word16) : BitVec 32 := start ++ count

/-- The request that carries a transaction. The ignored fields of EOS are sent as zeros (30_encoding.md R63). -/
def encode : Instr → Request
  | .reset => .rst 1#1
  | .byte b t => .inp (inWord 0b01#2 b t)
  | .eos => .inp (inWord 0b10#2 0#8 0#64)
  | .crc16 start count seq => .crc (crcWord start count) seq

/-! ## The opcode table -/

/-- A row of `spec/opcode_table.json`: its port, width in bits, mask, and match. -/
structure OpcodeRow where
  /-- The row's mnemonic. -/
  mnemonic : String
  /-- The port of the row's format. -/
  port : Port
  /-- The row's width in bits. -/
  width : Nat
  /-- The bits that the row fixes. -/
  mask : Nat
  /-- The values of the fixed bits. -/
  fixed : Nat
deriving DecidableEq, Repr

/-- The row of `spec/opcode_table.json` of each transaction. -/
def Instr.row : Instr → OpcodeRow
  | .reset => { mnemonic := "RESET", port := .rst, width := 1, mask := 0x1, fixed := 0x1 }
  | .byte _ _ =>
    { mnemonic := "BYTE", port := .inp, width := 74, mask := 0x3008000000000000000, fixed := 0x1000000000000000000 }
  | .eos =>
    { mnemonic := "EOS", port := .inp, width := 74, mask := 0x3000000000000000000, fixed := 0x2000000000000000000 }
  | .crc16 _ _ _ => { mnemonic := "CRC16", port := .crc, width := 32, mask := 0x0, fixed := 0x0 }

/-- A word of a port matches a row of the table. -/
def OpcodeRow.accepts (row : OpcodeRow) (r : Request) : Bool :=
  decide (r.port = row.port) && decide (r.word &&& row.mask = row.fixed)

/-! ## The notation of the test programs -/

/-- `FEED b0 b1 … @t0 +d` stands for `BYTE b0, @t0`, `BYTE b1, @t0+d` and so on (30_encoding.md R81). -/
def feed : List Byte → Nat → Nat → List Instr
  | [], _, _ => []
  | b :: rest, t0, d => .byte b (BitVec.ofNat 64 t0) :: feed rest (t0 + d) d

/-! ## The table's words as the host numbers them -/

/-- The operand `SEQ` that stands for the host's operand bits of zero: as many zero bytes as the word's range
`START + COUNT` reaches, within the port's limit (log entry 9). -/
def zeroSeq (w : BitVec 32) : List Byte :=
  List.replicate (min ((crcStart w).toNat + (crcCount w).toNat) config.maxSeqLength) 0#8

/-- The request that a table word of `nbits` bits (the row's width in whole bytes) stands for. The widths of the three
formats are 1, 32 and 74 bits, so `nbits` tells the port; bits beyond a port's width reach no wire (log entry 9). -/
def tableRequest (nbits w : Nat) : Option Request :=
  if nbits ≤ 8 then some (.rst (BitVec.ofNat 1 w))
  else if nbits ≤ 32 then some (.crc (BitVec.ofNat 32 w) (zeroSeq (BitVec.ofNat 32 w)))
  else if nbits ≤ 80 then some (.inp (BitVec.ofNat 74 w))
  else none

/-- The transaction this decoder reads from a table word. -/
def decodeTableWord (nbits w : Nat) : Option Instr :=
  match tableRequest nbits w with
  | none => none
  | some r =>
    match decode r with
    | .ok i => some i
    | .error _ => none

end Sys2Proof
end

