-- ==== Sys2Proof/Machine/State.lean ====
section
/-! DEFINITION. The state of the block as plain data, its value after reset, and the reasons a step can stop. The
block's own state is exactly `BUF`, `LEN` and `T_LAST` (10_state.md R20); `out` and `crcOut` record what its output
ports have produced, `pending` holds the requester's transactions not yet taken, and `draws` numbers the resets for the
free values. -/

namespace Sys2Proof.Machine

/-- The content of a PACKET event, the decoded packet (30_encoding.md R66, 42_header_decoder.md R150). -/
structure Packet where
  /-- `TYPE`, the packet type (R154). -/
  packetType : Byte
  /-- `PREFIX`, the serial prefix (R151). -/
  serialPrefix : Byte
  /-- `SERIAL`, the serial number (R152). -/
  serial : Word16
  /-- `PAYLOAD`, in wire order (R155). -/
  payload : List Byte
  /-- `TIME`, the arrival time of the byte that completed the frame (R156). -/
  time : Timestamp
deriving DecidableEq, Repr

/-- An event of the scanner output `OUT` (30_encoding.md R66, R67). The fields that carry no information in `NONE` and
`READ_FAIL` are left out (R68), and `STATUS = 11` has no constructor (93_implementation_defined.md U7). -/
inductive OutEvent where
  /-- `NONE`: a BYTE that confirmed no frame. -/
  | none
  /-- `PACKET`: a BYTE that confirmed a frame. -/
  | packet (p : Packet)
  /-- `READ_FAIL`: an EOS. -/
  | readFail
deriving DecidableEq, Repr

/-- The reasons a step stops with a fault. -/
inductive Fault where
  /-- Raised by CRC16 when `START + COUNT > |SEQ|`: the spec's own `Fault(ContractViolation)` (40_checksum_engine.md R105,
  60_exceptions.md R205). Safe: the machine stops where the spec gives no result. -/
  | contractViolation
deriving DecidableEq, Repr

/-- The reasons a step refuses. -/
inductive Refusal where
  /-- Raised by `exec` for a transaction without a meaning. Safe: nothing is claimed of it. -/
  | notModelled (mnemonic : String)
  /-- Raised by `step` for a request that encodes no transaction, with the decoder's reason: the spec's own `refuse`
  (30_encoding.md R63, R64; 93_implementation_defined.md U13). Safe: the machine stops where the spec gives no meaning. -/
  | badRequest (why : Reject)
deriving DecidableEq, Repr

/-- The storage `BUF`: (index, byte) pairs with indices strictly rising. An index that is not listed has not been
written since the last reset. -/
abbrev Memory := List Host.Cell

/-- The state of the machine. -/
structure State where
  /-- `BUF[0..256)`, the storage of the byte buffer (10_state.md R21). -/
  buf : Memory
  /-- `LEN`, the number of bytes in the buffer (10_state.md R22). -/
  len : Nat
  /-- `T_LAST`, the arrival time of the most recently appended byte (10_state.md R23). -/
  tLast : Timestamp
  /-- The events produced at the scanner output `OUT`, oldest first (30_encoding.md R66). -/
  out : List OutEvent
  /-- The responses `CRC_OUT` produced at the checksum port, oldest first (30_encoding.md R69). -/
  crcOut : List Word16
  /-- The requests issued and not yet taken, in the order of issue (20_memory.md R51, 10_state.md R28). -/
  pending : List Request
  /-- The model's own counter: how many RESET transactions have run. The free values are drawn with it. -/
  draws : Nat
deriving DecidableEq, Repr

/-- The machine after reset: `LEN = 0` (10_state.md R30), `BUF` with nothing listed, `T_LAST` at the 0 that R30 allows a
model to start from, and no request issued or answered. -/
def State.reset : State where
  buf := []
  len := 0
  tLast := 0#64
  out := []
  crcOut := []
  pending := []
  draws := 0

end Sys2Proof.Machine
end

