-- ==== Sys2Proof/Machine/Ops.lean ====
section
/-! DEFINITION. The named operations over the state: reading and writing `BUF`, the clear, the append, and the two
output ports. There is no trap entry or return to share: the block has none (60_exceptions.md R208, R209), and its one
fault has no next state (00_scope.md R17). -/

namespace Sys2Proof.Machine

/-! ## The storage `BUF` -/

/-- The byte listed at index `k`, if a BYTE has written it since the last reset. -/
def Memory.read : Memory → Nat → Option Byte
  | [], _ => none
  | (a, v) :: rest, k => if a = k then some v else Memory.read rest k

/-- `BUF[k] <- v` (00_scope.md R16), keeping the indices strictly rising. -/
def Memory.write : Memory → Nat → Byte → Memory
  | [], k, v => [(k, v)]
  | (a, w) :: rest, k, v =>
    if k < a then (k, v) :: (a, w) :: rest
    else if k = a then (k, v) :: rest
    else (a, w) :: Memory.write rest k v

/-- The listed indices rise strictly from `lo` on. -/
def Memory.rising : Nat → Memory → Bool
  | _, [] => true
  | lo, (a, _) :: rest => decide (lo ≤ a) && Memory.rising (a + 1) rest

/-- The canonical form of the storage: indices strictly rising, and all of them inside `BUF[0..256)` (20_memory.md R40).
No listed byte can repeat what an unlisted index reads as, since that is a free value. -/
def Memory.wf (m : Memory) : Bool :=
  Memory.rising 0 m && m.all fun c => decide (c.1 < config.bufCapacity)

/-- `BUF[i]` (00_scope.md R16). An index that no BYTE has written since the last reset holds an unspecified byte
(10_state.md R30): a free value. -/
def State.bufAt (s : State) (i : Nat) : Byte := (s.buf.read i).getD (Config.freeByte s.draws i)

/-- `BUF[a..b)`, empty when `a >= b` (00_scope.md R16). -/
def State.bufSlice (s : State) (a b : Nat) : List Byte := (List.range' a (b - a)).map s.bufAt

/-- The byte buffer of the source, `BUF[0..LEN)` (10_state.md R21). -/
def State.buffer (s : State) : List Byte := s.bufSlice 0 s.len

/-! ## Changes of the state -/

/-- The clear: the buffer is emptied as a whole, and nothing else is written (10_state.md R21, R23). -/
def State.clear (s : State) : State := { s with len := 0 }

/-- The append: `T_LAST <- t`, `BUF[LEN] <- b`, `LEN <- LEN + 1` (41_frame_scanner.md R123). -/
def State.append (s : State) (b : Byte) (t : Timestamp) : State :=
  { s with tLast := t, buf := s.buf.write s.len b, len := s.len + 1 }

/-- `emit`: one event at the scanner output (00_scope.md R17, 30_encoding.md R66). -/
def State.emit (s : State) (e : OutEvent) : State := { s with out := s.out ++ [e] }

/-- One response at the checksum port (30_encoding.md R69). -/
def State.respond (s : State) (v : Word16) : State := { s with crcOut := s.crcOut ++ [v] }

/-- The requests still to come, once the next one is taken (20_memory.md R51). -/
def State.withPending (s : State) (rest : List Request) : State := { s with pending := rest }

/-- What RESET leaves unspecified (10_state.md R30): the contents of `BUF` and `T_LAST` become free values, freshly
drawn. -/
def State.unspecify (s : State) : State :=
  { s with buf := [], tLast := (Config.freeTime (s.draws + 1)).setWidth 64, draws := s.draws + 1 }

end Sys2Proof.Machine
end

