-- ==== Sys2Proof/Machine/Reset.lean ====
section
/-! DEFINITION. The transaction RESET (70_reset_and_hazards.md R230). -/

namespace Sys2Proof.Machine

/-- The transaction RESET: `LEN <- 0`, `BUF` and `T_LAST` unspecified, no event (70_reset_and_hazards.md R230,
10_state.md R30). -/
def execReset (s : State) : Host.Outcome State Fault Refusal := .next s.unspecify.clear

end Sys2Proof.Machine
end

