-- ==== Sys2Proof/Machine/Operands.lean ====
section
/-! DEFINITION. The operand forms of the datapath: the big-endian 16-bit field and the frame fields read from `BUF`. The
operands of the transactions themselves are read from the port words in `Decode`. -/

namespace Sys2Proof.Machine

/-- `{hi, lo}`, a 16-bit field with the more significant byte first (20_memory.md R43). -/
def be16 (hi lo : Byte) : Word16 := hi ++ lo

/-- The received checksum `rx = {BUF[LEN-2], BUF[LEN-1]}` (30_encoding.md R73, 41_frame_scanner.md R126). -/
def State.rxCrc (s : State) : Word16 := be16 (s.bufAt (s.len - 2)) (s.bufAt (s.len - 1))

/-- The serial prefix of the frame at `i` (42_header_decoder.md R151). -/
def State.prefixAt (s : State) (i : Nat) : Byte := s.bufAt (i + 1)

/-- The serial number of the frame at `i`, big-endian (42_header_decoder.md R152). -/
def State.serialAt (s : State) (i : Nat) : Word16 := be16 (s.bufAt (i + 2)) (s.bufAt (i + 3))

/-- The packet type of the frame at `i` (42_header_decoder.md R154). `BUF[i+4]` is reserved and not exposed (R153). -/
def State.typeAt (s : State) (i : Nat) : Byte := s.bufAt (i + 5)

/-- The payload of the frame at `i`: up to but excluding the two checksum bytes (42_header_decoder.md R155). -/
def State.payloadAt (s : State) (i : Nat) : List Byte := s.bufSlice (i + 6) (s.len - 2)

end Sys2Proof.Machine
end

