-- ==== Sys2Proof/Machine/Flags.lean ====
section
/-! DEFINITION. The block has no status flags (10_state.md R25). What stands in their place: the two conditions a BYTE
tests before its append, and the status code and header word of an output event. -/

namespace Sys2Proof.Machine

/-- The stale condition: the buffer is not empty and the exact integer `t - T_LAST` exceeds `MAX_AGE_MS`
(41_frame_scanner.md R121). A clock that went back gives a negative difference and no staleness. -/
def State.stale (s : State) (t : Timestamp) : Bool :=
  decide (0 < s.len) && decide ((config.maxAgeMs : Int) < (t.toNat : Int) - (s.tLast.toNat : Int))

/-- The overflow condition `LEN > MAX_PACKET_LENGTH` (41_frame_scanner.md R122). -/
def State.overflow (s : State) : Bool := decide (config.maxPacketLength < s.len)

/-- The `STATUS` code of an event (30_encoding.md R67). -/
def OutEvent.status : OutEvent → BitVec 2
  | .none => 0b00#2
  | .packet _ => 0b01#2
  | .readFail => 0b10#2

/-- The 106-bit header word of a PACKET event, `{STATUS, TYPE, PREFIX, SERIAL, PLEN, TIME}` (30_encoding.md R66). -/
def Packet.headerWord (p : Packet) : BitVec 106 :=
  OutEvent.status (.packet p) ++ p.packetType ++ p.serialPrefix ++ p.serial ++ BitVec.ofNat 8 p.payload.length ++ p.time

end Sys2Proof.Machine
end

