-- ==== Sys2Proof/Machine/Checksum.lean ====
section
/-! DEFINITION. The Checksum Engine (40_checksum_engine.md): its round, its byte update, the checksum of a byte range,
and the transaction CRC16. -/

namespace Sys2Proof.Machine

/-- One round: a logical right shift, and the polynomial XORed in where the bit shifted out was 1
(40_checksum_engine.md R101). -/
def crcRound (r : Word16) : Word16 :=
  if r.getLsbD 0 then (r >>> 1) ^^^ config.crcPoly else r >>> 1

/-- `n` rounds. -/
def crcRounds : Nat → Word16 → Word16
  | 0, r => r
  | n + 1, r => crcRounds n (crcRound r)

/-- One byte update: the byte is XORed into bits 7:0 of the register, then 8 rounds (40_checksum_engine.md R102). -/
def crcByte (r : Word16) (b : Byte) : Word16 := crcRounds 8 (r ^^^ b.setWidth 16)

/-- The loop of CRC16: `n` byte updates over `SEQ[k]`, `SEQ[k+1]`, … in increasing order (40_checksum_engine.md R103).
No index outside the sequence is read within the contract that `crc16` checks. -/
def crcLoop (seq : List Byte) : Nat → Nat → Word16 → Word16
  | 0, _, r => r
  | n + 1, k, r => crcLoop seq n (k + 1) (crcByte r (seq.getD k 0#8))

/-- `CRC16(SEQ, START, COUNT)`: no value outside its contract (40_checksum_engine.md R103, R105). -/
def crc16 (seq : List Byte) (start count : Nat) : Option Word16 :=
  if seq.length < start + count then none
  else some (crcLoop seq count start config.crcInit ^^^ config.crcXorOut)

/-- The transaction CRC16: one response, or the fault of a contract violation. It reads and writes no state of the
block (40_checksum_engine.md R103 to R105). -/
def execCrc16 (start count : Word16) (seq : List Byte) (s : State) : Host.Outcome State Fault Refusal :=
  match crc16 seq start.toNat count.toNat with
  | none => .fault .contractViolation
  | some v => .next (s.respond v)

end Sys2Proof.Machine
end

