-- ==== Sys2Proof/Machine/HeaderDecoder.lean ====
section
/-! DEFINITION. The packet header decoder: decode, emission and post-decode clear, the tail of a BYTE that confirmed a
frame (42_header_decoder.md). -/

namespace Sys2Proof.Machine

/-- The fields of the frame confirmed at `i`, completed at time `t` (42_header_decoder.md R150 to R156). -/
def State.packetAt (s : State) (i : Nat) (t : Timestamp) : Packet where
  packetType := s.typeAt i
  serialPrefix := s.prefixAt i
  serial := s.serialAt i
  payload := s.payloadAt i
  time := t

/-- `DECODE_EMIT_CLEAR(s, t)` (42_header_decoder.md R150, R157, R158). -/
def decodeEmitClear (i : Nat) (t : Timestamp) (s : State) : State :=
  (s.emit (.packet (s.packetAt i t))).clear

end Sys2Proof.Machine
end

