-- ==== Sys2Proof/Machine/Scanner.lean ====
section
/-! DEFINITION. The Frame Scanner: accumulator, eviction, scan and validation, and the transactions BYTE and EOS
(41_frame_scanner.md). -/

namespace Sys2Proof.Machine

/-! ## Accumulator and eviction -/

/-- The staleness check (41_frame_scanner.md R121). -/
def State.evictStale (s : State) (t : Timestamp) : State := if s.stale t then s.clear else s

/-- The overflow check (41_frame_scanner.md R122). -/
def State.evictOverflow (s : State) : State := if s.overflow then s.clear else s

/-- Phases 1 to 3 of a BYTE: staleness check, overflow check, append (41_frame_scanner.md R120). -/
def State.accumulate (s : State) (b : Byte) (t : Timestamp) : State :=
  ((s.evictStale t).evictOverflow).append b t

/-! ## Scan and validation -/

/-- The local checksum `lc(i) = CRC16(BUF[0..LEN), i + 1, LEN - i - 3)` (41_frame_scanner.md R127). -/
def State.localCrc (s : State) (i : Nat) : Option Word16 := crc16 s.buffer (i + 1) (s.len - i - 3)

/-- Candidate `i` passes: the marker test (41_frame_scanner.md R125) and then the checksum match (R128). -/
def State.confirms (s : State) (i : Nat) : Bool :=
  decide (s.bufAt i = config.marker) && decide (s.localCrc i = some s.rxCrc)

/-- The least candidate from `i` on that passes, while `i + MIN_PACKET_LENGTH < LEN` (41_frame_scanner.md R124, R128).
The first argument bounds the number of candidates left. -/
def State.scanFrom (s : State) : Nat → Nat → Option Nat
  | 0, _ => none
  | n + 1, i =>
    if i + config.minPacketLength < s.len then
      if s.confirms i then some i else State.scanFrom s n (i + 1)
    else none

/-- The confirmed start, if there is one (41_frame_scanner.md R128). Every candidate lies below `LEN`. -/
def State.scan (s : State) : Option Nat := s.scanFrom s.len 0

/-! ## The transactions -/

/-- Phases 4 and 5 of a BYTE, once its byte is appended: scan, then no-frame completion (41_frame_scanner.md R129) or
decode, emission and clear (42_header_decoder.md R150). -/
def scanAndEmit (t : Timestamp) (s : State) : State :=
  match s.scan with
  | none => s.emit .none
  | some i => decodeEmitClear i t s

/-- The transaction BYTE (41_frame_scanner.md R130). -/
def execByte (b : Byte) (t : Timestamp) (s : State) : Host.Outcome State Fault Refusal :=
  .next (scanAndEmit t (s.accumulate b t))

/-- The transaction EOS: `READ_FAIL`, and nothing else changes (41_frame_scanner.md R131). -/
def execEos (s : State) : Host.Outcome State Fault Refusal := .next (s.emit .readFail)

end Sys2Proof.Machine
end

