-- ==== Sys2Proof/Machine/Dispatch.lean ====
section
/-! DEFINITION. The dispatch of a transaction to its meaning, one arm per row of the opcode table. -/

namespace Sys2Proof.Machine

def exec (i : Instr) (s : State) : Host.Outcome State Fault Refusal :=
  match i with
  | .reset => Sys2Proof.Machine.execReset s
  | .byte b t => Sys2Proof.Machine.execByte b t s
  | .eos => Sys2Proof.Machine.execEos s
  | .crc16 start count seq => Sys2Proof.Machine.execCrc16 start count seq s

end Sys2Proof.Machine
end

