-- ==== Sys2Proof/Machine/Step.lean ====
section
/-! DEFINITION. One step of the machine: the next issued request is taken, decoded and run as one atomic transaction
(00_scope.md R18, 20_memory.md R51). -/

namespace Sys2Proof.Machine

/-- One step. With no request issued the block is idle and keeps its state (60_exceptions.md R214). A request that
encodes no transaction is refused (30_encoding.md R63, R64). -/
def step (s : State) : Host.Outcome State Fault Refusal :=
  match s.pending with
  | [] => .next s
  | r :: rest =>
    match decode r with
    | .ok i => exec i (s.withPending rest)
    | .error why => .refused (.badRequest why)

/-- The state with a table word issued as the next request (log entry 9). -/
def State.withFetchWord (s : State) (nbits w : Nat) : State :=
  match tableRequest nbits w with
  | some r => s.withPending (r :: s.pending)
  | none => s

end Sys2Proof.Machine
end

