-- ==== Sys2Proof/Machine/Frame.lean ====
section
/-! DEFINITION. The wire frame as a sender builds it (30_encoding.md section 5). -/

namespace Sys2Proof.Machine

/-- The fields of a wire frame between its marker and its checksum (30_encoding.md R70). -/
structure Frame where
  /-- Offset 1. -/
  serialPrefix : Byte
  /-- Offsets 2 and 3, big-endian. -/
  serial : Word16
  /-- Offset 4: any value, ignored by the block (R75). -/
  reserved : Byte
  /-- Offset 5. -/
  packetType : Byte
  /-- Offsets 6 to `N-3`. -/
  payload : List Byte
deriving DecidableEq, Repr

/-- The high byte of a 16-bit field, the first on the wire (20_memory.md R43). -/
def hiByte (w : Word16) : Byte := w.extractLsb' 8 8

/-- The low byte of a 16-bit field, the second on the wire (20_memory.md R43). -/
def loByte (w : Word16) : Byte := w.extractLsb' 0 8

/-- Frame offsets 1 to `N-3`, which the checksum covers (30_encoding.md R74). -/
def Frame.covered (f : Frame) : List Byte :=
  f.serialPrefix :: hiByte f.serial :: loByte f.serial :: f.reserved :: f.packetType :: f.payload

/-- The checksum of a frame: CRC16 over offsets 1 to `N-3` (30_encoding.md R70). -/
def Frame.checksum (f : Frame) : Word16 :=
  crcLoop f.covered f.covered.length 0 config.crcInit ^^^ config.crcXorOut

/-- The `N` bytes of a frame on the wire (30_encoding.md R70). -/
def Frame.encode (f : Frame) : List Byte :=
  config.marker :: (f.covered ++ [hiByte f.checksum, loByte f.checksum])

end Sys2Proof.Machine
end

