-- ==== Sys2Proof/Safety.lean ====
section
/-! DEFINITION. What counts as a sound state and a safe run, in the terms the claims use. -/

namespace Sys2Proof.Machine

/-- An event that the block may produce: a PACKET has a payload of 3 to 248 bytes (30_encoding.md R66, 42_header_decoder.md
R155) and a time in range (00_scope.md R14). -/
def OutEvent.wf : OutEvent → Bool
  | .none => true
  | .readFail => true
  | .packet p => decide (3 ≤ p.payload.length) && decide (p.payload.length ≤ 248) && Timestamp.inRange p.time

/-- The invariant of the block. -/
structure State.Inv (s : State) : Prop where
  /-- `BUF` is in its canonical form, inside `BUF[0..256)` (20_memory.md R40). -/
  bufWf : s.buf.wf = true
  /-- `LEN <= 256` (10_state.md R22). -/
  lenLe : s.len ≤ 256
  /-- Every byte of the buffer has been written (10_state.md R21). -/
  written : ∀ i < s.len, (s.buf.read i).isSome = true
  /-- `T_LAST` lies in its range (10_state.md R20). -/
  timeInRange : Timestamp.inRange s.tLast = true
  /-- Every event produced is one the block may produce (30_encoding.md R66). -/
  eventsWf : ∀ e ∈ s.out, e.wf = true

/-- Two states that differ at most in what the spec says nothing can observe: the bytes of `BUF` beyond `LEN`
(10_state.md R21), `T_LAST` while `LEN = 0` (R24), and the model's own numbering of free values. -/
structure State.Agree (s s' : State) : Prop where
  /-- The same `LEN`. -/
  len : s.len = s'.len
  /-- The same buffer `BUF[0..LEN)`. -/
  buffer : s.buffer = s'.buffer
  /-- The same `T_LAST` where it can be read. -/
  time : 0 < s.len → s.tLast = s'.tLast
  /-- The same events. -/
  out : s.out = s'.out
  /-- The same checksum responses. -/
  crcOut : s.crcOut = s'.crcOut
  /-- The same requests to come. -/
  pending : s.pending = s'.pending

/-- Two outcomes of a step that cannot be told apart. -/
def AgreeOutcome : Host.Outcome State Fault Refusal → Host.Outcome State Fault Refusal → Prop
  | .next t, .next t' => t.Agree t'
  | .fault f, .fault f' => f = f'
  | .refused r, .refused r' => r = r'
  | .next _, .fault _ => False
  | .next _, .refused _ => False
  | .fault _, .next _ => False
  | .fault _, .refused _ => False
  | .refused _, .next _ => False
  | .refused _, .fault _ => False

/-- A request that meets the requester's duties 4 and 5 and the range of duty 3 (70_reset_and_hazards.md R233): it
encodes a transaction, and a checksum request stays within its contract. -/
def dutifulRequest (r : Request) : Bool :=
  match decode r with
  | .error _ => false
  | .ok (.crc16 start count seq) => decide (start.toNat + count.toNat ≤ seq.length)
  | .ok .reset => true
  | .ok (.byte _ _) => true
  | .ok .eos => true

/-- Every request issued meets the requester's duties (70_reset_and_hazards.md R233). -/
def State.dutiful (s : State) : Bool := s.pending.all dutifulRequest

/-- `k` steps of the machine, stopping at the first fault or refusal. -/
def run : Nat → State → Host.Outcome State Fault Refusal
  | 0, s => .next s
  | k + 1, s =>
    match step s with
    | .next s' => run k s'
    | .fault r => .fault r
    | .refused r => .refused r

/-- The index a BYTE at time `t` appends at: 0 where the buffer is stale (41_frame_scanner.md R121) or full (R122), and `LEN`
otherwise (R123). -/
def appendIndex (s : State) (t : Timestamp) : Nat :=
  if (0 < s.len ∧ s.tLast.toNat + 50 < t.toNat) ∨ 255 < s.len then 0 else s.len

/-- The buffer a BYTE scans: what the evictions left, then the new byte (41_frame_scanner.md R120). -/
def scannedBytes (s : State) (b : Byte) (t : Timestamp) : List Byte := s.buffer.take (appendIndex s t) ++ [b]

/-- Index `i` of a byte sequence starts a frame that ends at the sequence's last byte: at least 11 bytes follow from it, it
holds the marker, and the checksum over the bytes between the marker and the last two equals those two, big-endian
(41_frame_scanner.md R124 to R128). -/
def frameIn (bytes : List Byte) (i : Nat) : Prop :=
  i + 10 < bytes.length ∧ bytes.getD i 0 = 0x23 ∧
    ((bytes.drop (i + 1)).take (bytes.length - i - 3)).foldl crcByte 0xFFFF =
      bytes.getD (bytes.length - 2) 0 ++ bytes.getD (bytes.length - 1) 0

end Sys2Proof.Machine
end

