-- ==== Sys2Proof/Certificates/Slice0/Obligations.lean ====
section
/-! DEFINITION. The statements about the block, one definition each. -/

open Sys2Proof Sys2Proof.Machine

/-! ## Encoding -/

/-- For every transaction the ports can carry, the decoder reads from its encoding the transaction itself, with every
operand (30_encoding.md R61, R62, R65, R69). -/
def Obligations.DecodeOfEncodeIsIdentity : Prop :=
  ∀ i : Instr, i.wellFormed = true → decode (encode i) = .ok i

/-- A request that decodes to RESET, BYTE or CRC16 is the one encoding of that transaction: no bit of it is dropped. EOS
is left out because its `DATA` and `TIME` are ignored (30_encoding.md R63). -/
def Obligations.EncodeOfDecodeIsIdentity : Prop :=
  ∀ (r : Request) (i : Instr), decode r = .ok i → i ≠ .eos → encode i = r

/-- The word `{KIND, DATA, TIME}` at the scanner input (30_encoding.md R62, R63, R64): `KIND = 01` runs BYTE with `DATA` and
`TIME` unless `TIME[63] = 1`, which is refused; `KIND = 10` runs EOS whatever `DATA` and `TIME` are; `00` and `11` are
refused. -/
def Obligations.InWordSelectsTransaction : Prop :=
  ∀ (s : State) (rest : List Request) (kind : BitVec 2) (data : Byte) (time : Timestamp),
    s.pending = .inp (kind ++ data ++ time) :: rest →
      (kind = 0b01 → time.toNat < 2 ^ 63 → step s = exec (.byte data time) { s with pending := rest }) ∧
      (kind = 0b01 → 2 ^ 63 ≤ time.toNat → step s = .refused (.badRequest .timeOutOfRange)) ∧
      (kind = 0b10 → step s = exec .eos { s with pending := rest }) ∧
      (kind = 0b00 ∨ kind = 0b11 → step s = .refused (.badRequest .reservedKind))

/-- The word `{START, COUNT}` at the checksum port runs CRC16 with `SEQ` as it stands, `SEQ` of up to 65535 bytes, and a
longer one is refused (30_encoding.md R69, R80, 93_implementation_defined.md U13); `RST = 1` runs RESET (R65). That
`RST = 0` is refused by name is the model's own choice (log entry 7). -/
def Obligations.ChecksumAndResetPortsSelectTransaction : Prop :=
  ∀ (s : State) (rest : List Request) (start count : Word16) (seq : List Byte),
    (s.pending = .crc (start ++ count) seq :: rest →
      (seq.length ≤ 65535 → step s = exec (.crc16 start count seq) { s with pending := rest }) ∧
      (65535 < seq.length → step s = .refused (.badRequest .sequenceTooLong))) ∧
    (s.pending = .rst 1 :: rest → step s = exec .reset { s with pending := rest }) ∧
    (s.pending = .rst 0 :: rest → step s = .refused (.badRequest .resetNotAsserted))

/-- The mask and match of the opcode table's rows BYTE and EOS accept exactly the scanner words that decode to BYTE and
to EOS. -/
def Obligations.OpcodeTableAgreesWithDecoder : Prop :=
  ∀ w : BitVec 74,
    ((∃ b t, decode (.inp w) = .ok (.byte b t)) ↔ w &&& 0x3008000000000000000#74 = 0x1000000000000000000#74) ∧
    (decode (.inp w) = .ok .eos ↔ w &&& 0x3000000000000000000#74 = 0x2000000000000000000#74)

/-- A few words of the spec's programs and vectors, one per transaction and one at the top of the time range. -/
def Obligations.SampleWordsDecodeAsWritten : Prop :=
  decode (.rst 1#1) = .ok .reset ∧
  decode (.inp 0x12A0000000000000003#74) = .ok (.byte 0x2A 3) ∧
  decode (.inp 0x1237FFFFFFFFFFFFFFF#74) = .ok (.byte 0x23 9223372036854775807) ∧
  decode (.inp 0x2FF0000000000003039#74) = .ok .eos ∧
  decode (.crc 0x00020003#32 [0x31, 0x32]) = .ok (.crc16 2 3 [0x31, 0x32])

/-- The 106-bit header word of a PACKET event carries each field at its place (30_encoding.md R66): `STATUS` 01, `TYPE`,
`PREFIX`, `SERIAL`, `PLEN` the payload's length, and `TIME`. -/
def Obligations.PacketHeaderWordCarriesFields : Prop :=
  ∀ p : Packet, p.payload.length ≤ 248 →
    p.headerWord.extractLsb 105 104 = 0b01#2 ∧ p.headerWord.extractLsb 103 96 = p.packetType ∧
    p.headerWord.extractLsb 95 88 = p.serialPrefix ∧ p.headerWord.extractLsb 87 72 = p.serial ∧
    (p.headerWord.extractLsb 71 64).toNat = p.payload.length ∧ p.headerWord.extractLsb 63 0 = p.time

/-! ## Checksum Engine -/

/-- One round of the CRC register (40_checksum_engine.md R101): the value halves, and 0xA001 is XORed in where the low bit
was 1. -/
def Obligations.CrcRoundShiftsAndXorsPolynomial : Prop :=
  ∀ r : Word16, (crcRound r).toNat = if r.toNat % 2 = 1 then (r.toNat / 2) ^^^ 0xA001 else r.toNat / 2

/-- One byte update (40_checksum_engine.md R102): the byte is XORed into bits 7:0, bits 15:8 stay, and 8 rounds follow. -/
def Obligations.CrcByteXorsLowByteThenEightRounds : Prop :=
  ∀ (r : Word16) (b : Byte), ∃ x : Word16,
    x.extractLsb 15 8 = r.extractLsb 15 8 ∧ x.extractLsb 7 0 = r.extractLsb 7 0 ^^^ b ∧ crcByte r b = crcRound^[8] x

/-- The byte update is linear over XOR: a consequence of rules R101 and R102 that a wrong shift, mask or carry breaks. -/
def Obligations.CrcByteIsLinearOverXor : Prop :=
  ∀ (r r' : Word16) (b b' : Byte), crcByte (r ^^^ r') (b ^^^ b') = crcByte r b ^^^ crcByte r' b'

/-- CRC16 (40_checksum_engine.md R103, R104, R105). Within the contract the transaction completes: its one effect is the
response, the register started at 0xFFFF and updated by the bytes of the range in increasing order; the block's state
stays as it was. Outside it, the transaction is the fault `ContractViolation` and answers no value. -/
def Obligations.Crc16RespondsWithinContract : Prop :=
  ∀ (start count : Word16) (seq : List Byte) (s : State),
    (start.toNat + count.toNat ≤ seq.length →
      exec (.crc16 start count seq) s =
        .next { s with crcOut := s.crcOut ++ [((seq.drop start.toNat).take count.toNat).foldl crcByte 0xFFFF] }) ∧
    (seq.length < start.toNat + count.toNat → exec (.crc16 start count seq) s = .fault .contractViolation)

/-- The checksum depends on the bytes of its range alone, not on where the range stands or on what surrounds it
(40_checksum_engine.md R103, corner cases). -/
def Obligations.ChecksumDependsOnRangeOnly : Prop :=
  ∀ pre pre' mid post post' : List Byte,
    crc16 (pre ++ mid ++ post) pre.length mid.length = crc16 (pre' ++ mid ++ post') pre'.length mid.length

/-- Two byte sequences of one length that differ in exactly one byte have different checksums. -/
def Obligations.ChecksumDetectsOneChangedByte : Prop :=
  ∀ (a c : List Byte) (x y : Byte), x ≠ y →
    crc16 (a ++ x :: c) 0 (a.length + 1 + c.length) ≠ crc16 (a ++ y :: c) 0 (a.length + 1 + c.length)

/-- The scanner's own use of CRC16 always lies within the contract and always has a value (40_checksum_engine.md R107). -/
def Obligations.ScannerChecksumWithinContract : Prop :=
  ∀ (s : State) (i : Nat), i + 10 < s.len →
    (i + 1) + (s.len - i - 3) = s.len - 2 ∧ s.len - 2 ≤ s.buffer.length ∧ 8 ≤ s.len - i - 3 ∧ ∃ v, s.localCrc i = some v

/-- A CRC16 within its contract commutes with every other transaction: either order answers the same state
(60_exceptions.md R212). -/
def Obligations.Crc16CommutesWithOtherTransactions : Prop :=
  ∀ (i : Instr) (start count : Word16) (seq : List Byte) (s t : State),
    (∀ c n q, i ≠ .crc16 c n q) → exec (.crc16 start count seq) s = .next t →
      ∃ u v, exec i s = .next u ∧ exec i t = .next v ∧ exec (.crc16 start count seq) u = .next v

/-! ## Accumulator and eviction -/

/-- The staleness check (41_frame_scanner.md R121): with a non-empty buffer and an exact gap of more than 50 ms, `LEN`
becomes 0 and nothing else is written; with an empty buffer, a gap of 50 ms or less, or a clock that went back, nothing
changes. -/
def Obligations.StalenessCheckClearsOnlyLen : Prop :=
  ∀ (s : State) (t : Timestamp),
    (0 < s.len → 50 < (t.toNat : Int) - (s.tLast.toNat : Int) → s.evictStale t = { s with len := 0 }) ∧
    (s.len = 0 ∨ (t.toNat : Int) - (s.tLast.toNat : Int) ≤ 50 → s.evictStale t = s)

/-- The overflow check (41_frame_scanner.md R122): a buffer of more than 255 bytes is cleared and nothing else is written;
a shorter one is left as it is. -/
def Obligations.OverflowCheckClearsOnlyLen : Prop :=
  ∀ s : State, (255 < s.len → s.evictOverflow = { s with len := 0 }) ∧ (s.len ≤ 255 → s.evictOverflow = s)

/-- The append (41_frame_scanner.md R123): whatever the two checks did, `LEN <= 255` at that point, `T_LAST` takes the
timestamp, `BUF[LEN]` the byte, `LEN` goes up by one to a value of 1 to 256, and every other byte of `BUF` stays. -/
def Obligations.AppendFollowsEvictions : Prop :=
  ∀ (s : State) (b : Byte) (t : Timestamp), ∃ n,
    n = ((s.evictStale t).evictOverflow).len ∧ n ≤ 255 ∧
    (s.accumulate b t).tLast = t ∧ (s.accumulate b t).bufAt n = b ∧ (s.accumulate b t).len = n + 1 ∧
    1 ≤ (s.accumulate b t).len ∧ (s.accumulate b t).len ≤ 256 ∧
    ∀ a, a ≠ n → (s.accumulate b t).bufAt a = s.bufAt a

/-- A BYTE that clears by staleness or overflow completes with `NONE` and a buffer of its own byte alone
(60_exceptions.md R202, R207). -/
def Obligations.EvictingByteRestartsAccumulation : Prop :=
  ∀ (b : Byte) (t : Timestamp) (s : State),
    ((0 < s.len ∧ s.tLast.toNat + 50 < t.toNat) ∨ 255 < s.len) →
      exec (.byte b t) s =
        .next { s with buf := s.buf.write 0 b, len := 1, tLast := t, out := s.out ++ [.none] }

/-- `BUF[0..LEN)` stays a run of the delivered bytes in arrival order: after any number of BYTE transactions it is a suffix
of the buffer at the start followed by the bytes delivered (20_memory.md R51). -/
def Obligations.BufferIsSuffixOfDeliveredBytes : Prop :=
  ∀ (bs : List (Byte × Timestamp)) (s t : State),
    s.pending = bs.map (fun p => encode (.byte p.1 p.2)) → run bs.length s = .next t →
      t.buffer <:+ s.buffer ++ bs.map Prod.fst

/-! ## Scanner and validator -/

/-- The confirmed start is the least index at which a frame ends at the buffer's last byte: at least 11 bytes from a marker
on, with the checksum over the bytes between the marker and the last two equal to those two, big-endian; and there is none
exactly where no index is such (41_frame_scanner.md R124, R125, R128). -/
def Obligations.ScanConfirmsLeastMatchingMarker : Prop :=
  ∀ s : State,
    (∀ i, s.scan = some i ↔ frameIn s.buffer i ∧ ∀ j < i, ¬ frameIn s.buffer j) ∧
    (s.scan = none ↔ ∀ j, ¬ frameIn s.buffer j)

/-- A BYTE after which no index starts a frame completes with `NONE`, and the buffer keeps all its bytes with the new one
appended (41_frame_scanner.md R129). -/
def Obligations.ByteWithoutMatchKeepsBuffer : Prop :=
  ∀ (b : Byte) (t : Timestamp) (s : State), (∀ j, ¬ frameIn (scannedBytes s b t) j) →
    exec (.byte b t) s =
      .next { s with
        buf := s.buf.write (appendIndex s t) b, len := appendIndex s t + 1, tLast := t, out := s.out ++ [.none] }

/-- A BYTE that confirms a frame at `i` completes with one PACKET event and an empty buffer (42_header_decoder.md R150 to
R158): the prefix is the byte after the marker, the serial number the next two bytes big-endian, the byte after them is not
read, the type follows, the payload runs up to the two checksum bytes, and the time is the BYTE's own. -/
def Obligations.ByteWithMatchEmitsPacketAndClears : Prop :=
  ∀ (b : Byte) (t : Timestamp) (s : State) (i : Nat),
    frameIn (scannedBytes s b t) i → (∀ j < i, ¬ frameIn (scannedBytes s b t) j) →
      exec (.byte b t) s =
        .next { s with
          buf := s.buf.write (appendIndex s t) b
          len := 0
          tLast := t
          out := s.out ++ [.packet
            { packetType := (scannedBytes s b t).getD (i + 5) 0
              serialPrefix := (scannedBytes s b t).getD (i + 1) 0
              serial := (scannedBytes s b t).getD (i + 2) 0 ++ (scannedBytes s b t).getD (i + 3) 0
              payload := ((scannedBytes s b t).drop (i + 6)).take ((scannedBytes s b t).length - i - 8)
              time := t }] }

/-- Every BYTE completes, from every state: with `NONE` and a buffer of 1 to 256 bytes, or with a PACKET of 3 to 248 payload
bytes at its own time and an empty buffer (41_frame_scanner.md R130, 30_encoding.md R78, R79). -/
def Obligations.ByteAlwaysCompletesInOneOfTwoWays : Prop :=
  ∀ (b : Byte) (t : Timestamp) (s : State), ∃ u, exec (.byte b t) s = .next u ∧
    ((u.out = s.out ++ [.none] ∧ 1 ≤ u.len ∧ u.len ≤ 256) ∨
      (∃ p : Packet, u.out = s.out ++ [.packet p] ∧ u.len = 0 ∧ p.time = t ∧
        3 ≤ p.payload.length ∧ p.payload.length ≤ 248))

/-- The frame of BYTE: the one index of `BUF` it writes is where its evictions left `LEN`, and that byte is its own; every
other byte of `BUF`, the checksum responses and the requests to come are unchanged. `T_LAST`, `LEN` and one event are what
it writes beside (41_frame_scanner.md R130). -/
def Obligations.ByteWritesOneBufferByte : Prop :=
  ∀ (b : Byte) (t : Timestamp) (s u : State), exec (.byte b t) s = .next u →
    ((s.evictStale t).evictOverflow).len < 256 ∧
    u.bufAt ((s.evictStale t).evictOverflow).len = b ∧
    (∀ a, a ≠ ((s.evictStale t).evictOverflow).len → u.bufAt a = s.bufAt a) ∧
    u.tLast = t ∧ u.crcOut = s.crcOut ∧ u.pending = s.pending ∧ u.draws = s.draws ∧ ∃ e, u.out = s.out ++ [e]

/-- With at most 10 bytes in the buffer after the append there is no candidate: the BYTE emits `NONE`. So a 10-byte frame is
not confirmed by its own last byte (41_frame_scanner.md R124, 90_conflicts.md C2). -/
def Obligations.TenBytesOrFewerNeverConfirm : Prop :=
  ∀ (b : Byte) (t : Timestamp) (s : State), appendIndex s t + 1 ≤ 10 →
    ∃ u, exec (.byte b t) s = .next u ∧ u.out = s.out ++ [.none] ∧ u.len = appendIndex s t + 1

/-- The last byte of a wire frame, in time and with the rest of the frame in the buffer, behind bytes that start no frame,
gives the PACKET of that frame's fields: the format of 30_encoding.md R70 is the format the block decodes, with the reserved
byte not exposed. -/
def Obligations.LastByteOfWireFrameIsDecoded : Prop :=
  ∀ (f : Frame) (junk : List Byte) (b : Byte) (t : Timestamp) (s : State),
    3 ≤ f.payload.length → junk.length + (f.payload.length + 8) ≤ 256 →
    s.buffer ++ [b] = junk ++ f.encode → t.toNat ≤ s.tLast.toNat + 50 →
    (∀ j < junk.length, ¬ frameIn (junk ++ f.encode) j) →
      ∃ u, exec (.byte b t) s = .next u ∧ u.len = 0 ∧
        u.out = s.out ++ [.packet
          { packetType := f.packetType, serialPrefix := f.serialPrefix, serial := f.serial, payload := f.payload, time := t }]

/-- A whole wire frame sent into an empty buffer, its bytes at most 50 ms apart, is decoded at its last byte and at no
earlier one, unless the bytes of a proper prefix happen to confirm a frame (70_reset_and_hazards.md R235, R238, R239). -/
def Obligations.WireFrameSentInTimeIsDecoded : Prop :=
  ∀ (f : Frame) (ts : List Timestamp) (s : State),
    3 ≤ f.payload.length → f.payload.length ≤ 248 → ts.length = f.encode.length →
    (∀ t ∈ ts, t.toNat < 2 ^ 63) →
    (∀ k, k + 1 < ts.length → (ts.getD (k + 1) 0).toNat ≤ (ts.getD k 0).toNat + 50) →
    (∀ n < f.encode.length, ∀ j, ¬ frameIn (f.encode.take n) j) →
    s.len = 0 → s.pending = List.zipWith (fun b t => encode (.byte b t)) f.encode ts →
      ∃ u, run f.encode.length s = .next u ∧ u.len = 0 ∧ u.pending = [] ∧
        u.out = s.out ++ List.replicate (f.encode.length - 1) .none ++ [.packet
          { packetType := f.packetType, serialPrefix := f.serialPrefix, serial := f.serial, payload := f.payload
            time := ts.getD (f.encode.length - 1) 0 }]

/-- The 16-bit fields are big-endian: the byte at the lower index is the more significant (30_encoding.md R72, R73). -/
def Obligations.SixteenBitFieldsAreBigEndian : Prop :=
  ∀ (s : State) (i : Nat),
    (s.serialAt i).toNat = (s.bufAt (i + 2)).toNat * 256 + (s.bufAt (i + 3)).toNat ∧
    s.rxCrc.toNat = (s.bufAt (s.len - 2)).toNat * 256 + (s.bufAt (s.len - 1)).toNat ∧
    s.prefixAt i = s.bufAt (i + 1) ∧ s.typeAt i = s.bufAt (i + 5)

/-! ## End of stream and reset -/

/-- EOS completes with `READ_FAIL` and leaves everything else as it was (41_frame_scanner.md R131, 60_exceptions.md R201). -/
def Obligations.EosReportsReadFailAndKeepsState : Prop :=
  ∀ s : State, exec .eos s = .next { s with out := s.out ++ [.readFail] }

/-- Any number of EOS words in a row each give `READ_FAIL` and change nothing else, whatever their `DATA` and `TIME`: the
staleness of the next BYTE is measured from the last byte appended (70_reset_and_hazards.md R240). -/
def Obligations.EosRunDoesNotRefreshTime : Prop :=
  ∀ (ws : List (Byte × Timestamp)) (rest : List Request) (s : State),
    s.pending = ws.map (fun p => .inp (0b10#2 ++ p.1 ++ p.2)) ++ rest →
      run ws.length s =
        .next { s with pending := rest, out := s.out ++ List.replicate ws.length .readFail }

/-- RESET completes (70_reset_and_hazards.md R230): it empties the buffer and emits nothing. The first BYTE after it is
neither stale nor an overflow and leaves a buffer of that byte alone, with `NONE`. A second RESET changes nothing that can
be observed. What `BUF` and `T_LAST` hold after RESET is unspecified, and nothing is stated of it. -/
def Obligations.ResetEmptiesBuffer : Prop :=
  ∀ s : State, ∃ r, exec .reset s = .next r ∧
    r.len = 0 ∧ r.buffer = [] ∧ r.out = s.out ∧ r.crcOut = s.crcOut ∧ r.pending = s.pending ∧
    (∀ (b : Byte) (t : Timestamp), ∃ u, exec (.byte b t) r = .next u ∧
      u.len = 1 ∧ u.bufAt 0 = b ∧ u.tLast = t ∧ u.out = s.out ++ [.none]) ∧
    (∃ r', exec .reset r = .next r' ∧ r.Agree r')

/-- What the transactions other than RESET do to `T_LAST`: BYTE writes its own timestamp, EOS and CRC16 leave it
(10_state.md R23). After RESET it is unspecified (10_state.md R30; log entry 4). -/
def Obligations.LastTimeIsWrittenByByteOnly : Prop :=
  ∀ (i : Instr) (s u : State), i ≠ .reset → exec i s = .next u →
    (∀ b t, i = .byte b t → u.tLast = t) ∧ ((∀ b t, i ≠ .byte b t) → u.tLast = s.tLast)

/-! ## The machine as a whole -/

/-- The requests are taken one at a time in the order of issue: where the next one encodes a transaction, the step is that
transaction run on the state with the request taken; where it encodes none, the step is the refusal (20_memory.md R51,
30_encoding.md R64). -/
def Obligations.StepRunsDecodedTransaction : Prop :=
  ∀ (s : State) (r : Request) (rest : List Request), s.pending = r :: rest →
    (∀ i, decode r = .ok i → step s = exec i { s with pending := rest }) ∧
    (∀ why, decode r = .error why → step s = .refused (.badRequest why))

/-- With no request issued the block keeps its state for any length of time (60_exceptions.md R214, R206). -/
def Obligations.IdleBlockKeepsState : Prop :=
  ∀ (k : Nat) (s : State), s.pending = [] → run k s = .next s

/-- The events of a transaction (30_encoding.md R67): a BYTE produces exactly one, with `STATUS` 01 where a frame was
confirmed and 00 where none was; an EOS exactly one, with `STATUS` 10; RESET and CRC16 none; no event has `STATUS` 11; and
the events already produced stay as they are. -/
def Obligations.OneEventPerScannerTransaction : Prop :=
  (∀ (i : Instr) (s u : State), exec i s = .next u →
    (∀ b t, i = .byte b t → ∃ e, u.out = s.out ++ [e] ∧
      ((∃ j, frameIn (scannedBytes s b t) j) → e.status = 0b01) ∧
      ((∀ j, ¬ frameIn (scannedBytes s b t) j) → e.status = 0b00)) ∧
    (i = .eos → ∃ e, u.out = s.out ++ [e] ∧ e.status = 0b10) ∧
    ((∀ b t, i ≠ .byte b t) → i ≠ .eos → u.out = s.out)) ∧
  ∀ e : OutEvent, e.status ≠ 0b11

/-- The only stops of the machine: a fault is a contract violation of a request at the checksum port (60_exceptions.md
R205), and a refusal is a request that encodes no transaction (30_encoding.md R63, R64). The scanner stops on nothing. -/
def Obligations.StopsAreContractViolationsOrBadRequests : Prop :=
  ∀ s : State,
    (∀ f, step s = .fault f → f = .contractViolation ∧ ∃ (start count : Word16) (seq : List Byte) (rest : List Request),
      s.pending = .crc (start ++ count) seq :: rest ∧ seq.length < start.toNat + count.toNat) ∧
    (∀ r, step s = .refused r → ∃ q rest why, s.pending = q :: rest ∧ decode q = .error why ∧ r = .badRequest why)

/-- The invariant of the block is kept by every step from every state that meets it: `BUF` in canonical form inside its 256
bytes, `LEN <= 256` with every buffered byte written, `T_LAST` in its range, and every event one the block may produce
(10_state.md R21, R22, R20; 30_encoding.md R66). -/
def Obligations.StepKeepsInvariant : Prop :=
  ∀ s t : State, s.Inv → step s = .next t → t.Inv

/-- The state after reset has an empty buffer (10_state.md R30) and meets the invariant. Its `T_LAST`, which the invariant
holds to its range, is the 0 the model chose (log entry 5). -/
def Obligations.ResetStateIsEmptyAndSound : Prop :=
  State.reset.len = 0 ∧ State.reset.buffer = [] ∧ State.reset.Inv

/-- Two states that differ only in the bytes of `BUF` beyond `LEN`, in `T_LAST` while `LEN = 0`, and in the numbering of the
free values, cannot be told apart by any run: the same events, responses, buffer and stops (10_state.md R21, R24). -/
def Obligations.HiddenStateCannotBeObserved : Prop :=
  ∀ (k : Nat) (s s' : State), s.Agree s' → AgreeOutcome (run k s) (run k s')

/-- The unspecified values of `BUF` and `T_LAST` while the buffer is empty, as after reset, affect no output
(70_reset_and_hazards.md R231). -/
def Obligations.ResetValuesCannotBeObserved : Prop :=
  ∀ (k : Nat) (s : State) (m : Memory) (t : Timestamp) (d : Nat),
    AgreeOutcome (run k { s with len := 0 }) (run k { s with len := 0, buf := m, tLast := t, draws := d })

/-- A requester that keeps its duties never stops the machine: where every request issued encodes a transaction and every
CRC16 lies within its contract, every run of any length answers a next state (70_reset_and_hazards.md R233). -/
def Obligations.DutifulRequesterNeverStopsMachine : Prop :=
  ∀ (k : Nat) (s : State), s.dutiful = true → ∃ t, run k s = .next t ∧ t.dutiful = true
end

