-- ==== Sys2Proof/Laws/State.lean ====
section
/-! SUPPORT. What each update of the state does to each field, true by definition, and the constants of the block. -/

namespace Sys2Proof

@[simp] theorem config_marker : config.marker = 0x23 := rfl
@[simp] theorem config_minPacketLength : config.minPacketLength = 10 := rfl
@[simp] theorem config_maxPacketLength : config.maxPacketLength = 255 := rfl
@[simp] theorem config_maxAgeMs : config.maxAgeMs = 50 := rfl
@[simp] theorem config_crcPoly : config.crcPoly = 0xA001#16 := rfl
@[simp] theorem config_crcInit : config.crcInit = 0xFFFF#16 := rfl
@[simp] theorem config_crcXorOut : config.crcXorOut = 0#16 := rfl
@[simp] theorem config_maxSeqLength : config.maxSeqLength = 65535 := rfl
@[simp] theorem config_bufCapacity : config.bufCapacity = 256 := rfl

namespace Machine.State

variable (s : State) (b : Byte) (t : Timestamp) (e : OutEvent) (v : Word16) (q : List Request)

@[simp] theorem clear_buf : s.clear.buf = s.buf := rfl
@[simp] theorem clear_len : s.clear.len = 0 := rfl
@[simp] theorem clear_tLast : s.clear.tLast = s.tLast := rfl
@[simp] theorem clear_out : s.clear.out = s.out := rfl
@[simp] theorem clear_crcOut : s.clear.crcOut = s.crcOut := rfl
@[simp] theorem clear_pending : s.clear.pending = s.pending := rfl
@[simp] theorem clear_draws : s.clear.draws = s.draws := rfl

@[simp] theorem append_buf : (s.append b t).buf = s.buf.write s.len b := rfl
@[simp] theorem append_len : (s.append b t).len = s.len + 1 := rfl
@[simp] theorem append_tLast : (s.append b t).tLast = t := rfl
@[simp] theorem append_out : (s.append b t).out = s.out := rfl
@[simp] theorem append_crcOut : (s.append b t).crcOut = s.crcOut := rfl
@[simp] theorem append_pending : (s.append b t).pending = s.pending := rfl
@[simp] theorem append_draws : (s.append b t).draws = s.draws := rfl

@[simp] theorem emit_buf : (s.emit e).buf = s.buf := rfl
@[simp] theorem emit_len : (s.emit e).len = s.len := rfl
@[simp] theorem emit_tLast : (s.emit e).tLast = s.tLast := rfl
@[simp] theorem emit_out : (s.emit e).out = s.out ++ [e] := rfl
@[simp] theorem emit_crcOut : (s.emit e).crcOut = s.crcOut := rfl
@[simp] theorem emit_pending : (s.emit e).pending = s.pending := rfl
@[simp] theorem emit_draws : (s.emit e).draws = s.draws := rfl

@[simp] theorem respond_buf : (s.respond v).buf = s.buf := rfl
@[simp] theorem respond_len : (s.respond v).len = s.len := rfl
@[simp] theorem respond_tLast : (s.respond v).tLast = s.tLast := rfl
@[simp] theorem respond_out : (s.respond v).out = s.out := rfl
@[simp] theorem respond_crcOut : (s.respond v).crcOut = s.crcOut ++ [v] := rfl
@[simp] theorem respond_pending : (s.respond v).pending = s.pending := rfl
@[simp] theorem respond_draws : (s.respond v).draws = s.draws := rfl

@[simp] theorem withPending_buf : (s.withPending q).buf = s.buf := rfl
@[simp] theorem withPending_len : (s.withPending q).len = s.len := rfl
@[simp] theorem withPending_tLast : (s.withPending q).tLast = s.tLast := rfl
@[simp] theorem withPending_out : (s.withPending q).out = s.out := rfl
@[simp] theorem withPending_crcOut : (s.withPending q).crcOut = s.crcOut := rfl
@[simp] theorem withPending_pending : (s.withPending q).pending = q := rfl
@[simp] theorem withPending_draws : (s.withPending q).draws = s.draws := rfl

@[simp] theorem unspecify_buf : s.unspecify.buf = [] := rfl
@[simp] theorem unspecify_len : s.unspecify.len = s.len := rfl
@[simp] theorem unspecify_tLast : s.unspecify.tLast = (Config.freeTime (s.draws + 1)).setWidth 64 := rfl
@[simp] theorem unspecify_out : s.unspecify.out = s.out := rfl
@[simp] theorem unspecify_crcOut : s.unspecify.crcOut = s.crcOut := rfl
@[simp] theorem unspecify_pending : s.unspecify.pending = s.pending := rfl
@[simp] theorem unspecify_draws : s.unspecify.draws = s.draws + 1 := rfl

/-- Reading `BUF` depends on the storage and on the number of its free values alone. -/
theorem bufAt_congr {s s' : State} (hb : s.buf = s'.buf) (hd : s.draws = s'.draws) (i : Nat) :
    s.bufAt i = s'.bufAt i := by simp only [bufAt, hb, hd]

@[simp] theorem clear_bufAt (i : Nat) : s.clear.bufAt i = s.bufAt i := rfl
@[simp] theorem emit_bufAt (i : Nat) : (s.emit e).bufAt i = s.bufAt i := rfl
@[simp] theorem respond_bufAt (i : Nat) : (s.respond v).bufAt i = s.bufAt i := rfl
@[simp] theorem withPending_bufAt (i : Nat) : (s.withPending q).bufAt i = s.bufAt i := rfl

end Machine.State

end Sys2Proof
end

