-- ==== Sys2Proof/Laws/Memory.lean ====
section
/-! SUPPORT. The laws of the storage `BUF`: a read after a write, and that every operation keeps the canonical form. -/

namespace Sys2Proof.Machine

namespace Memory

theorem read_write_same (m : Memory) (k : Nat) (v : Byte) : (m.write k v).read k = some v := by
  induction m with
  | nil => simp [write, read]
  | cons c rest ih =>
    obtain ⟨a, w⟩ := c
    simp only [write]
    split
    · simp [read]
    · split
      · simp [read]
      · rename_i h; simp [read, Ne.symm h, ih]

theorem read_write_other (m : Memory) {k j : Nat} (v : Byte) (h : j ≠ k) : (m.write k v).read j = m.read j := by
  induction m with
  | nil => simp [write, read, Ne.symm h]
  | cons c rest ih =>
    obtain ⟨a, w⟩ := c
    simp only [write]
    split
    · simp [read, Ne.symm h]
    · split
      · rename_i hk; subst hk; simp [read, Ne.symm h]
      · simp [read, ih]

theorem rising_mono {m : Memory} {lo lo' : Nat} (h : lo ≤ lo') (hm : m.rising lo' = true) : m.rising lo = true := by
  cases m with
  | nil => rfl
  | cons c rest =>
    obtain ⟨a, w⟩ := c
    simp only [rising, Bool.and_eq_true, decide_eq_true_eq] at hm ⊢
    exact ⟨h.trans hm.1, hm.2⟩

theorem rising_write {m : Memory} {lo k : Nat} (v : Byte) (hk : lo ≤ k) (hm : m.rising lo = true) :
    (m.write k v).rising lo = true := by
  induction m generalizing lo with
  | nil => simpa [write, rising] using hk
  | cons c rest ih =>
    obtain ⟨a, w⟩ := c
    simp only [rising, Bool.and_eq_true, decide_eq_true_eq] at hm
    simp only [write]
    split
    · rename_i h
      simp only [rising, Bool.and_eq_true, decide_eq_true_eq]
      exact ⟨hk, h, hm.2⟩
    · split
      · rename_i h; subst h
        simp only [rising, Bool.and_eq_true, decide_eq_true_eq]
        exact ⟨hk, hm.2⟩
      · simp only [rising, Bool.and_eq_true, decide_eq_true_eq]
        exact ⟨hm.1, ih (by omega) hm.2⟩

theorem bounded_write {m : Memory} {n k : Nat} (v : Byte) (hk : k < n)
    (hm : (m.all fun c => decide (c.1 < n)) = true) : ((m.write k v).all fun c => decide (c.1 < n)) = true := by
  induction m with
  | nil => simpa [write] using hk
  | cons c rest ih =>
    obtain ⟨a, w⟩ := c
    simp only [List.all_cons, Bool.and_eq_true, decide_eq_true_eq] at hm
    simp only [write]
    split
    · simp only [List.all_cons, Bool.and_eq_true, decide_eq_true_eq]
      exact ⟨hk, hm⟩
    · split <;> simp only [List.all_cons, Bool.and_eq_true, decide_eq_true_eq]
      · exact ⟨hk, hm.2⟩
      · exact ⟨hm.1, ih hm.2⟩

/-- A write inside `BUF[0..256)` keeps the canonical form. -/
theorem wf_write {m : Memory} {k : Nat} (v : Byte) (hk : k < 256) (hm : m.wf = true) : (m.write k v).wf = true := by
  simp only [wf, Bool.and_eq_true, config_bufCapacity] at hm ⊢
  exact ⟨rising_write v (Nat.zero_le k) hm.1, bounded_write v hk hm.2⟩

/-- The storage with nothing listed, that of `State.reset` and of RESET, is in canonical form. -/
theorem wf_nil : Memory.wf [] = true := rfl

end Memory

namespace State

theorem append_bufAt_same (s : State) (b : Byte) (t : Timestamp) : (s.append b t).bufAt s.len = b := by
  simp [bufAt, Memory.read_write_same]

theorem append_bufAt_other (s : State) (b : Byte) (t : Timestamp) {i : Nat} (h : i ≠ s.len) :
    (s.append b t).bufAt i = s.bufAt i := by
  simp [bufAt, Memory.read_write_other _ _ h]

@[simp] theorem bufSlice_length (s : State) (a b : Nat) : (s.bufSlice a b).length = b - a := by
  simp [bufSlice]

@[simp] theorem buffer_length (s : State) : s.buffer.length = s.len := by simp [buffer]

theorem bufSlice_getElem? (s : State) {a b k : Nat} (h : k < b - a) : (s.bufSlice a b)[k]? = some (s.bufAt (a + k)) := by
  simp [bufSlice, h]

theorem buffer_getElem? (s : State) {k : Nat} (h : k < s.len) : s.buffer[k]? = some (s.bufAt k) := by
  simpa [buffer] using s.bufSlice_getElem? (a := 0) (b := s.len) (k := k) (by omega)

theorem buffer_getD (s : State) {k : Nat} (h : k < s.len) : s.buffer.getD k 0#8 = s.bufAt k := by
  simp [List.getD, s.buffer_getElem? h]

/-- `BUF[a..b)` is a run of the buffer `BUF[0..LEN)`. -/
theorem bufSlice_eq_take_drop (s : State) {a b : Nat} (hb : b ≤ s.len) :
    s.bufSlice a b = (s.buffer.drop a).take (b - a) := by
  apply List.ext_getElem?
  intro k
  by_cases h : k < b - a
  · rw [s.bufSlice_getElem? h, List.getElem?_take_of_lt h, List.getElem?_drop, s.buffer_getElem? (by omega)]
  · rw [List.getElem?_eq_none (by simp; omega), List.getElem?_eq_none (by simp; omega)]

end State

end Sys2Proof.Machine
end

