-- ==== Sys2Proof/Laws/Checksum.lean ====
section
/-! SUPPORT. The Checksum Engine: when a request has a value, and everything CRC16 can do. -/

namespace Sys2Proof.Machine

theorem crcRounds_succ (n : Nat) (r : Word16) : crcRounds (n + 1) r = crcRounds n (crcRound r) := rfl

theorem crcLoop_succ (seq : List Byte) (n k : Nat) (r : Word16) :
    crcLoop seq (n + 1) k r = crcLoop seq n (k + 1) (crcByte r (seq.getD k 0#8)) := rfl

theorem crc16_eq_none_iff {seq : List Byte} {start count : Nat} :
    crc16 seq start count = none ↔ seq.length < start + count := by
  unfold crc16; split <;> simp [*]

theorem crc16_of_le {seq : List Byte} {start count : Nat} (h : start + count ≤ seq.length) :
    crc16 seq start count = some (crcLoop seq count start config.crcInit) := by
  simp [crc16, Nat.not_lt.mpr h]

/-- Within the sequence, the loop is the fold of the byte update over the range. -/
theorem crcLoop_eq_foldl (seq : List Byte) (n k : Nat) (r : Word16) (h : k + n ≤ seq.length) :
    crcLoop seq n k r = ((seq.drop k).take n).foldl crcByte r := by
  induction n generalizing k r with
  | zero => simp [crcLoop]
  | succ n ih =>
    have hk : k < seq.length := by omega
    rw [crcLoop_succ, ih _ _ (by omega), List.drop_eq_getElem_cons hk, List.take_succ_cons, List.foldl_cons]
    simp [List.getD, hk]

theorem crcRounds_eq_iterate (n : Nat) (r : Word16) : crcRounds n r = crcRound^[n] r := by
  induction n generalizing r with
  | zero => rfl
  | succ n ih => rw [crcRounds_succ, ih, Function.iterate_succ_apply]

/-- Everything CRC16 can do: one response within its contract, and the fault outside it. -/
theorem execCrc16_cases (start count : Word16) (seq : List Byte) (s : State) :
    (seq.length < start.toNat + count.toNat ∧ execCrc16 start count seq s = .fault .contractViolation) ∨
      (start.toNat + count.toNat ≤ seq.length ∧
        execCrc16 start count seq s = .next (s.respond (crcLoop seq count.toNat start.toNat config.crcInit))) := by
  by_cases h : seq.length < start.toNat + count.toNat
  · left; simp [execCrc16, crc16_eq_none_iff.mpr h, h]
  · right; simp [execCrc16, crc16_of_le (Nat.not_lt.mp h), Nat.not_lt.mp h]

end Sys2Proof.Machine
end

