-- ==== Sys2Proof/Laws/Encoding.lean ====
section
/-! SUPPORT. The fields of the port words: a field read from a word built of its fields is that field, and a word is
built of its fields. -/

namespace Sys2Proof

/-- The value of a concatenation: the high part weighs `2 ^ n`. -/
theorem toNat_concat {m n : Nat} (x : BitVec m) (y : BitVec n) : (x ++ y).toNat = x.toNat * 2 ^ n + y.toNat := by
  rw [BitVec.toNat_append, Nat.shiftLeft_eq, Nat.mul_comm, Nat.two_pow_add_eq_or_of_lt y.isLt]

/-- The value of an `IN` word (30_encoding.md R61). -/
theorem inWord_toNat (k : BitVec 2) (d : Byte) (t : Timestamp) :
    (inWord k d t).toNat = (k.toNat * 2 ^ 8 + d.toNat) * 2 ^ 64 + t.toNat :=
  (toNat_concat (k ++ d) t).trans (by rw [toNat_concat])

/-- The value of a checksum port word (30_encoding.md R69). -/
theorem crcWord_toNat (a n : Word16) : (crcWord a n).toNat = a.toNat * 2 ^ 16 + n.toNat := toNat_concat a n

@[simp] theorem inKind_inWord (k : BitVec 2) (d : Byte) (t : Timestamp) : inKind (inWord k d t) = k := by
  apply BitVec.eq_of_toNat_eq
  rw [inKind, BitVec.extractLsb'_toNat, inWord_toNat, Nat.shiftRight_eq_div_pow]
  have := k.isLt; have := d.isLt; have := t.isLt; omega

@[simp] theorem inData_inWord (k : BitVec 2) (d : Byte) (t : Timestamp) : inData (inWord k d t) = d := by
  apply BitVec.eq_of_toNat_eq
  rw [inData, BitVec.extractLsb'_toNat, inWord_toNat, Nat.shiftRight_eq_div_pow]
  have := k.isLt; have := d.isLt; have := t.isLt; omega

@[simp] theorem inTime_inWord (k : BitVec 2) (d : Byte) (t : Timestamp) : inTime (inWord k d t) = t := by
  apply BitVec.eq_of_toNat_eq
  rw [inTime, BitVec.extractLsb'_toNat, inWord_toNat, Nat.shiftRight_eq_div_pow]
  have := k.isLt; have := d.isLt; have := t.isLt; omega

@[simp] theorem crcStart_crcWord (a n : Word16) : crcStart (crcWord a n) = a := by
  apply BitVec.eq_of_toNat_eq
  rw [crcStart, BitVec.extractLsb'_toNat, crcWord_toNat, Nat.shiftRight_eq_div_pow]
  have := a.isLt; have := n.isLt; omega

@[simp] theorem crcCount_crcWord (a n : Word16) : crcCount (crcWord a n) = n := by
  apply BitVec.eq_of_toNat_eq
  rw [crcCount, BitVec.extractLsb'_toNat, crcWord_toNat, Nat.shiftRight_eq_div_pow]
  have := a.isLt; have := n.isLt; omega

theorem inWord_fields (w : BitVec 74) : inWord (inKind w) (inData w) (inTime w) = w := by
  apply BitVec.eq_of_toNat_eq
  rw [inWord_toNat, inKind, inData, inTime]
  simp only [BitVec.extractLsb'_toNat, Nat.shiftRight_eq_div_pow]
  have := w.isLt; omega

theorem crcWord_fields (w : BitVec 32) : crcWord (crcStart w) (crcCount w) = w := by
  apply BitVec.eq_of_toNat_eq
  rw [crcWord_toNat, crcStart, crcCount]
  simp only [BitVec.extractLsb'_toNat, Nat.shiftRight_eq_div_pow]
  have := w.isLt; omega

/-- Bit 63 of a timestamp tells whether it lies outside the range of 00_scope.md R14. -/
theorem getLsbD_63_iff (t : Timestamp) : t.getLsbD 63 = true ↔ 2 ^ 63 ≤ t.toNat := by
  rw [BitVec.getLsbD, Nat.testBit_eq_decide_div_mod_eq, decide_eq_true_iff]
  have := t.isLt; omega

theorem Timestamp.inRange_iff (t : Timestamp) : Timestamp.inRange t = true ↔ t.toNat < 2 ^ 63 := by
  rw [← Nat.not_le, ← getLsbD_63_iff]; simp [Timestamp.inRange]

/-- The bits of an `IN` word under a mask given by its fields. -/
theorem inWord_and (k k' : BitVec 2) (d d' : Byte) (t t' : Timestamp) :
    inWord k d t &&& inWord k' d' t' = inWord (k &&& k') (d &&& d') (t &&& t') := by
  unfold inWord
  refine (BitVec.and_append).trans ?_
  rw [BitVec.and_append]

end Sys2Proof
end

