-- ==== Sys2Proof/Laws/Scanner.lean ====
section
/-! SUPPORT. The Frame Scanner: what its eviction, append and scan do, and everything BYTE can do. -/

namespace Sys2Proof.Machine

namespace State

/-- The stale condition, with the exact difference written as a sum (41_frame_scanner.md R121). -/
theorem stale_iff (s : State) (t : Timestamp) : s.stale t = true ↔ 0 < s.len ∧ s.tLast.toNat + 50 < t.toNat := by
  rw [stale, Bool.and_eq_true, decide_eq_true_iff, decide_eq_true_iff, config_maxAgeMs]; omega

theorem overflow_iff (s : State) : s.overflow = true ↔ 255 < s.len := by
  rw [overflow, decide_eq_true_iff, config_maxPacketLength]

/-- The two tests of a candidate (41_frame_scanner.md R125, R128). -/
theorem confirms_iff (s : State) (i : Nat) :
    s.confirms i = true ↔ s.bufAt i = 0x23 ∧ s.localCrc i = some s.rxCrc := by
  rw [confirms, Bool.and_eq_true, decide_eq_true_iff, decide_eq_true_iff, config_marker]

/-- An eviction clears the buffer or changes nothing. -/
theorem evictStale_eq (s : State) (t : Timestamp) : s.evictStale t = s.clear ∨ s.evictStale t = s := by
  unfold evictStale; split; exacts [.inl rfl, .inr rfl]

theorem evictOverflow_eq (s : State) :
    (255 < s.len ∧ s.evictOverflow = s.clear) ∨ (s.len ≤ 255 ∧ s.evictOverflow = s) := by
  unfold evictOverflow overflow
  by_cases h : 255 < s.len
  · simp [h]
  · simp [h]; omega

/-- The state that the append sees: it differs from the start in `LEN` alone, and `LEN <= 255` there. -/
theorem evicted_eq (s : State) (t : Timestamp) :
    ((s.evictStale t).evictOverflow = s.clear ∨ (s.evictStale t).evictOverflow = s) ∧
      (s.evictStale t).evictOverflow.len ≤ 255 := by
  rcases s.evictStale_eq t with h | h <;> rw [h]
  · rcases s.clear.evictOverflow_eq with ⟨h1, h2⟩ | ⟨h1, h2⟩
    · simp at h1
    · simp [h2]
  · rcases s.evictOverflow_eq with ⟨h1, h2⟩ | ⟨h1, h2⟩ <;> simp [h2, h1]

theorem evicted_len_le (s : State) (t : Timestamp) : (s.evictStale t).evictOverflow.len ≤ 255 := (s.evicted_eq t).2

@[simp] theorem evicted_buf (s : State) (t : Timestamp) : (s.evictStale t).evictOverflow.buf = s.buf := by
  rcases (s.evicted_eq t).1 with h | h <;> rw [h]; rfl

@[simp] theorem evicted_out (s : State) (t : Timestamp) : (s.evictStale t).evictOverflow.out = s.out := by
  rcases (s.evicted_eq t).1 with h | h <;> rw [h]; rfl

@[simp] theorem evicted_crcOut (s : State) (t : Timestamp) : (s.evictStale t).evictOverflow.crcOut = s.crcOut := by
  rcases (s.evicted_eq t).1 with h | h <;> rw [h]; rfl

@[simp] theorem evicted_pending (s : State) (t : Timestamp) : (s.evictStale t).evictOverflow.pending = s.pending := by
  rcases (s.evicted_eq t).1 with h | h <;> rw [h]; rfl

@[simp] theorem evicted_draws (s : State) (t : Timestamp) : (s.evictStale t).evictOverflow.draws = s.draws := by
  rcases (s.evicted_eq t).1 with h | h <;> rw [h]; rfl

@[simp] theorem accumulate_buf (s : State) (b : Byte) (t : Timestamp) :
    (s.accumulate b t).buf = s.buf.write (s.evictStale t).evictOverflow.len b := by simp [accumulate]

@[simp] theorem accumulate_len (s : State) (b : Byte) (t : Timestamp) :
    (s.accumulate b t).len = (s.evictStale t).evictOverflow.len + 1 := rfl

@[simp] theorem accumulate_tLast (s : State) (b : Byte) (t : Timestamp) : (s.accumulate b t).tLast = t := rfl

@[simp] theorem accumulate_out (s : State) (b : Byte) (t : Timestamp) : (s.accumulate b t).out = s.out := by
  simp [accumulate]

@[simp] theorem accumulate_crcOut (s : State) (b : Byte) (t : Timestamp) : (s.accumulate b t).crcOut = s.crcOut := by
  simp [accumulate]

@[simp] theorem accumulate_pending (s : State) (b : Byte) (t : Timestamp) :
    (s.accumulate b t).pending = s.pending := by simp [accumulate]

@[simp] theorem accumulate_draws (s : State) (b : Byte) (t : Timestamp) : (s.accumulate b t).draws = s.draws := by
  simp [accumulate]

theorem scanFrom_succ (s : State) (n i : Nat) :
    s.scanFrom (n + 1) i =
      if i + 10 < s.len then if s.confirms i then some i else s.scanFrom n (i + 1) else none := rfl

theorem accumulate_bufAt_same (s : State) (b : Byte) (t : Timestamp) :
    (s.accumulate b t).bufAt (s.evictStale t).evictOverflow.len = b := by
  simp [bufAt, Memory.read_write_same]

theorem accumulate_bufAt_other (s : State) (b : Byte) (t : Timestamp) {a : Nat}
    (h : a ≠ (s.evictStale t).evictOverflow.len) : (s.accumulate b t).bufAt a = s.bufAt a := by
  simp [bufAt, Memory.read_write_other _ _ h]

/-- What a scan from `i` with enough candidates left finds. -/
theorem scanFrom_eq_some {s : State} {n i k : Nat} (h : s.scanFrom n i = some k) :
    i ≤ k ∧ k + 10 < s.len ∧ s.confirms k = true ∧ ∀ j, i ≤ j → j < k → s.confirms j = false := by
  induction n generalizing i with
  | zero => simp [scanFrom] at h
  | succ n ih =>
    rw [scanFrom_succ] at h
    split at h
    · rename_i hi
      split at h
      · rename_i hc; cases h
        exact ⟨le_refl _, hi, hc, fun j h1 h2 => absurd h2 (by omega)⟩
      · rename_i hc
        obtain ⟨h1, h2, h3, h4⟩ := ih h
        refine ⟨by omega, h2, h3, fun j h5 h6 => ?_⟩
        by_cases hj : j = i
        · subst hj; simpa using hc
        · exact h4 j (by omega) h6
    · cases h

theorem scanFrom_eq_none {s : State} {n i : Nat} (hn : s.len ≤ i + n) (h : s.scanFrom n i = none) :
    ∀ j, i ≤ j → j + 10 < s.len → s.confirms j = false := by
  induction n generalizing i with
  | zero => intro j h1 h2; omega
  | succ n ih =>
    rw [scanFrom_succ] at h
    split at h
    · split at h
      · cases h
      · rename_i hc
        intro j h1 h2
        by_cases hj : j = i
        · subst hj; simpa using hc
        · exact ih (by omega) h j (by omega) h2
    · intro j h1 h2; omega

/-- A confirmed start is a candidate that passes, and no earlier candidate does. -/
theorem scan_eq_some {s : State} {k : Nat} (h : s.scan = some k) :
    k + 10 < s.len ∧ s.confirms k = true ∧ ∀ j < k, s.confirms j = false :=
  ⟨(scanFrom_eq_some h).2.1, (scanFrom_eq_some h).2.2.1, fun j hj => (scanFrom_eq_some h).2.2.2 j (Nat.zero_le j) hj⟩

/-- Where nothing is confirmed, no candidate passes. -/
theorem scan_eq_none {s : State} (h : s.scan = none) : ∀ j, j + 10 < s.len → s.confirms j = false :=
  fun j => scanFrom_eq_none (by omega) h j (Nat.zero_le j)

end State

/-- Everything a BYTE can do, in terms of the state its append leaves. -/
theorem execByte_cases (b : Byte) (t : Timestamp) (s : State) :
    ((s.accumulate b t).scan = none ∧ execByte b t s = .next ((s.accumulate b t).emit .none)) ∨
      (∃ i, (s.accumulate b t).scan = some i ∧ i + 10 < (s.accumulate b t).len ∧
        execByte b t s = .next (((s.accumulate b t).emit (.packet ((s.accumulate b t).packetAt i t))).clear)) := by
  unfold execByte scanAndEmit
  cases h : (s.accumulate b t).scan with
  | none => left; simp
  | some i => right; exact ⟨i, rfl, (State.scan_eq_some h).1, rfl⟩

end Sys2Proof.Machine
end

