-- ==== Sys2Proof/Laws/Step.lean ====
section
/-! SUPPORT. Everything a step can do, and the unfolding of a run. -/

namespace Sys2Proof.Machine

theorem step_idle {s : State} (h : s.pending = []) : step s = .next s := by unfold step; rw [h]

theorem step_ok {s : State} {r : Request} {rest : List Request} {i : Instr} (h : s.pending = r :: rest)
    (hd : decode r = .ok i) : step s = exec i (s.withPending rest) := by
  unfold step; simp only [h, hd]

theorem step_error {s : State} {r : Request} {rest : List Request} {why : Reject} (h : s.pending = r :: rest)
    (hd : decode r = .error why) : step s = .refused (.badRequest why) := by
  unfold step; simp only [h, hd]

/-- A step is idle, runs the transaction its next request encodes, or refuses a request that encodes none. -/
theorem step_cases (s : State) :
    (s.pending = [] ∧ step s = .next s) ∨
      (∃ r rest i, s.pending = r :: rest ∧ decode r = .ok i ∧ step s = exec i (s.withPending rest)) ∨
      (∃ r rest why, s.pending = r :: rest ∧ decode r = .error why ∧ step s = .refused (.badRequest why)) := by
  cases h : s.pending with
  | nil => exact .inl ⟨rfl, step_idle h⟩
  | cons r rest =>
    cases hd : decode r with
    | ok i => exact .inr (.inl ⟨r, rest, i, rfl, hd, step_ok h hd⟩)
    | error why => exact .inr (.inr ⟨r, rest, why, rfl, hd, step_error h hd⟩)

/-- Every transaction either answers a next state or is a CRC16 outside its contract. -/
theorem exec_cases (i : Instr) (s : State) :
    (∃ t, exec i s = .next t) ∨
      (∃ start count seq, i = .crc16 start count seq ∧ seq.length < start.toNat + count.toNat ∧
        exec i s = .fault .contractViolation) := by
  cases i with
  | reset => exact .inl ⟨_, rfl⟩
  | byte b t => exact .inl ⟨_, rfl⟩
  | eos => exact .inl ⟨_, rfl⟩
  | crc16 start count seq =>
    rcases execCrc16_cases start count seq s with ⟨h1, h2⟩ | ⟨_, h2⟩
    · exact .inr ⟨start, count, seq, rfl, h1, h2⟩
    · exact .inl ⟨_, h2⟩

@[simp] theorem run_zero (s : State) : run 0 s = .next s := rfl

theorem core_run_succ (M : Host.Core) (k : Nat) (s : M.State) :
    M.run (k + 1) s =
      match M.step s with
      | .next s' => M.run k s'
      | .fault r => .fault r
      | .refused r => .refused r := by rfl

theorem core_run_of_next (M : Host.Core) {k : Nat} {s s' : M.State} (h : M.step s = .next s') :
    M.run (k + 1) s = M.run k s' := by rw [core_run_succ, h]

theorem core_run_of_fault (M : Host.Core) {k : Nat} {s : M.State} {r : M.Fault} (h : M.step s = .fault r) :
    M.run (k + 1) s = .fault r := by rw [core_run_succ, h]

theorem core_run_of_refused (M : Host.Core) {k : Nat} {s : M.State} {r : M.Refusal} (h : M.step s = .refused r) :
    M.run (k + 1) s = .refused r := by rw [core_run_succ, h]

/-- The run of the claims is the run of the host's interface. -/
theorem run_eq_core_run (k : Nat) (s : State) : run k s = Sys2Proof.core.run k s := by
  induction k generalizing s with
  | zero => rfl
  | succ k ih =>
    rw [run]
    cases h : step s with
    | next s' => exact (ih s').trans (core_run_of_next core h).symm
    | fault r => exact (core_run_of_fault core h).symm
    | refused r => exact (core_run_of_refused core h).symm

theorem run_succ_of_next {k : Nat} {s t : State} (h : step s = .next t) : run (k + 1) s = run k t := by
  rw [run, h]

end Sys2Proof.Machine
end

