-- ==== Sys2Proof/Laws/Claims.lean ====
section
/-! SUPPORT. The notions of `Safety` in terms of the machine: the append index, the buffer a BYTE scans, and what a
candidate's tests say of that buffer. -/

namespace Sys2Proof.Machine

/-- The index of the append is where the two evictions leave `LEN`. -/
theorem evicted_len_eq_appendIndex (s : State) (t : Timestamp) :
    (s.evictStale t).evictOverflow.len = appendIndex s t := by
  unfold State.evictStale appendIndex
  by_cases h : s.stale t = true
  · rw [if_pos h, if_pos (.inl ((s.stale_iff t).mp h))]; rfl
  · rw [if_neg h]
    rcases s.evictOverflow_eq with ⟨h1, h2⟩ | ⟨h1, h2⟩
    · rw [h2, if_pos (.inr h1)]; rfl
    · rw [h2, if_neg]
      rintro (h3 | h3)
      · exact h ((s.stale_iff t).mpr h3)
      · omega

theorem appendIndex_le_len (s : State) (t : Timestamp) : appendIndex s t ≤ s.len := by
  unfold appendIndex; split <;> omega

theorem appendIndex_le (s : State) (t : Timestamp) : appendIndex s t ≤ 255 := by
  rw [← evicted_len_eq_appendIndex]; exact s.evicted_len_le t

/-- The state after phases 1 to 3 of a BYTE, field by field. -/
theorem accumulate_eq (s : State) (b : Byte) (t : Timestamp) :
    s.accumulate b t =
      { s with buf := s.buf.write (appendIndex s t) b, len := appendIndex s t + 1, tLast := t } := by
  have h1 := s.accumulate_buf b t
  have h2 := s.accumulate_len b t
  rw [evicted_len_eq_appendIndex] at h1 h2
  have h3 := s.accumulate_out b t
  have h4 := s.accumulate_crcOut b t
  have h5 := s.accumulate_pending b t
  have h6 := s.accumulate_draws b t
  have h7 := s.accumulate_tLast b t
  generalize s.accumulate b t = x at *
  cases x
  simp only at h1 h2 h3 h4 h5 h6 h7
  rw [h1, h2, h3, h4, h5, h6, h7]

/-- The buffer after phases 1 to 3 of a BYTE. -/
theorem accumulate_buffer (s : State) (b : Byte) (t : Timestamp) : (s.accumulate b t).buffer = scannedBytes s b t := by
  have hl := appendIndex_le_len s t
  have hs := s.accumulate_bufAt_same b t
  have ho := fun a => s.accumulate_bufAt_other b t (a := a)
  have hlen := s.accumulate_len b t
  rw [evicted_len_eq_appendIndex] at hs ho hlen
  apply List.ext_getElem?
  intro k
  unfold scannedBytes
  rcases Nat.lt_trichotomy k (appendIndex s t) with h | h | h
  · rw [State.buffer_getElem? _ (by omega), List.getElem?_append_left (by simp; omega), List.getElem?_take_of_lt h,
      State.buffer_getElem? _ (by omega), ho k (by omega)]
  · rw [State.buffer_getElem? _ (by omega), List.getElem?_append_right (by simp; omega)]
    simp [h, hl, hs]
  · rw [List.getElem?_eq_none (by rw [State.buffer_length, hlen]; omega), List.getElem?_eq_none (by simp; omega)]

/-- The local checksum of a candidate, which always has a value (40_checksum_engine.md R107). -/
theorem localCrc_eq (s : State) {i : Nat} (h : i + 10 < s.len) :
    s.localCrc i = some (((s.buffer.drop (i + 1)).take (s.len - i - 3)).foldl crcByte 0xFFFF) := by
  have hle : i + 1 + (s.len - i - 3) ≤ s.buffer.length := by rw [State.buffer_length]; omega
  rw [State.localCrc, crc16_of_le hle, crcLoop_eq_foldl _ _ _ _ hle]; rfl

/-- A candidate passes its tests exactly where a frame starts there. -/
theorem confirms_iff_frameIn (s : State) {i : Nat} (h : i + 10 < s.len) : s.confirms i = true ↔ frameIn s.buffer i := by
  have e1 : s.buffer.getD i 0 = s.bufAt i := s.buffer_getD (by omega)
  have e2 : s.buffer.getD (s.len - 2) 0 = s.bufAt (s.len - 2) := s.buffer_getD (by omega)
  have e3 : s.buffer.getD (s.len - 1) 0 = s.bufAt (s.len - 1) := s.buffer_getD (by omega)
  rw [State.confirms_iff, localCrc_eq s h, Option.some.injEq]
  unfold frameIn State.rxCrc be16
  rw [State.buffer_length, e1, e2, e3]
  simp [h]

/-- A run can be lengthened by the step after it. -/
theorem run_succ_of_run_next {k : Nat} {s t : State} (h : run k s = .next t) : run (k + 1) s = step t := by
  induction k generalizing s with
  | zero => cases h; rw [run]; cases h : step t <;> rfl
  | succ k ih =>
    rw [run] at h ⊢
    cases hs : step s with
    | next s' => rw [hs] at h; exact ih h
    | fault r => rw [hs] at h; cases h
    | refused r => rw [hs] at h; cases h

/-- The high and the low byte of a 16-bit field put it together again (20_memory.md R43). -/
theorem hiByte_append_loByte (w : Word16) : hiByte w ++ loByte w = w := by
  apply BitVec.eq_of_toNat_eq
  refine (toNat_concat (hiByte w) (loByte w)).trans ?_
  simp only [hiByte, loByte, BitVec.extractLsb'_toNat, Nat.shiftRight_eq_div_pow]
  have := w.isLt; omega

@[simp] theorem Frame.encode_length (f : Frame) : f.encode.length = f.payload.length + 8 := by
  simp [Frame.encode, Frame.covered]

theorem Frame.checksum_eq_foldl (f : Frame) : f.checksum = f.covered.foldl crcByte 0xFFFF := by
  rw [Frame.checksum, crcLoop_eq_foldl _ _ _ _ (by omega)]; simp

end Sys2Proof.Machine
end

