-- ==== Sys2Proof/Laws/PerInstr.lean ====
section
/-! SUPPORT. What holds of each transaction as syntax, one lemma per constructor: the encoding of every transaction the
ports can carry matches its row of the opcode table. -/

namespace Sys2Proof.Laws.TableRow

/-- The encoding of a transaction stands at its row's port and has the bits its row fixes. -/
def Statement (i : Instr) : Prop := i.wellFormed = true → i.row.accepts (encode i) = true

theorem reset : Statement .reset := fun _ => rfl

theorem byte (b : Byte) (t : Timestamp) : Statement (.byte b t) := by
  intro h
  have ht : t &&& BitVec.twoPow 64 63 = 0#64 := by
    rw [BitVec.and_twoPow, if_neg]
    rw [getLsbD_63_iff, Nat.not_le]
    exact (Timestamp.inRange_iff t).mp h
  have hw : inWord 0b01#2 b t &&& inWord 0b11#2 0#8 (BitVec.twoPow 64 63) = inWord 0b01#2 0#8 0#64 := by
    rw [inWord_and, ht, BitVec.and_zero]; rfl
  have hn := congrArg BitVec.toNat hw
  rw [BitVec.toNat_and] at hn
  rw [OpcodeRow.accepts, Bool.and_eq_true, decide_eq_true_iff, decide_eq_true_iff]
  exact ⟨rfl, hn⟩

theorem eos : Statement .eos := fun _ => by decide

theorem crc16 (start count : Word16) (seq : List Byte) : Statement (.crc16 start count seq) := by
  intro _
  simp [OpcodeRow.accepts, Instr.row, encode, Request.port, Request.word]

end Sys2Proof.Laws.TableRow
end

