-- ==== Sys2Proof/Tests/Slice0.lean ====
section
/-! SUPPORT. The model's own tests. Expected values come from the spec's examples and vectors (95_test_vectors.md, cited by
name), or from its encoding tables by hand. The last section shows, for each statement with hypotheses, states and operands
that meet them. -/

namespace Sys2Proof.Tests

open Sys2Proof.Machine

/-- A state whose buffer holds the given bytes, the last of them arrived at `t`. -/
def st (bytes : List Byte) (t : Timestamp) : State :=
  { State.reset with buf := (List.range bytes.length).zip bytes, len := bytes.length, tLast := t }

/-- The frame F11 of 95_test_vectors.md without its last byte `9E`. -/
def f11init : List Byte := [0x23, 0x01, 0x00, 0x2A, 0x00, 0x05, 0x10, 0x20, 0x30, 0xD0]

/-- The fields of the frame F11. -/
def f11 : Frame where
  serialPrefix := 0x01
  serial := 0x002A
  reserved := 0x00
  packetType := 0x05
  payload := [0x10, 0x20, 0x30]

/-- The ASCII sequence "123456789". -/
def s9 : List Byte := [0x31, 0x32, 0x33, 0x34, 0x35, 0x36, 0x37, 0x38, 0x39]

/-! ## Well-formedness: each check refuses an ill-formed transaction -/

theorem test_wellFormed_time_top : (Instr.byte 0x23 0x7FFFFFFFFFFFFFFF).wellFormed = true := by decide

theorem test_illFormed_time : (Instr.byte 0x23 0x8000000000000000).wellFormed = false := by decide

theorem illFormed_of_length (seq : List Byte) (h : seq.length = 65536) : (Instr.crc16 0 0 seq).wellFormed = false := by
  simp [Instr.wellFormed, h]

theorem test_illFormed_sequence : (Instr.crc16 0 0 (List.replicate 65536 0)).wellFormed = false :=
  illFormed_of_length _ List.length_replicate

/-! ## Decoding: words written out from 30_encoding.md R61, R62, R65, R69 -/

/-- `KIND = 01`, `DATA = 00101010`, `TIME = 3`. -/
theorem test_decode_byte :
    decode (.inp (0b01#2 ++ 0b00101010#8 ++
      0b0000000000000000000000000000000000000000000000000000000000000011#64)) = .ok (.byte 0x2A 3) := by rfl

/-- V-ENC-04: the largest timestamp. -/
theorem test_decode_byte_top : decode (.inp 0x1237FFFFFFFFFFFFFFF#74) = .ok (.byte 0x23 9223372036854775807) := by rfl

/-- V-EOS-04: `KIND = 10`, with `DATA` and `TIME` set. -/
theorem test_decode_eos : decode (.inp 0x2FF0000000000003039#74) = .ok .eos := by rfl

theorem test_decode_reset : decode (.rst 0b1#1) = .ok .reset := by rfl

/-- P7 line 2: `START = 0000000000000010`, `COUNT = 0000000000000011`. -/
theorem test_decode_crc16 :
    decode (.crc 0b00000000000000100000000000000011#32 s9) = .ok (.crc16 2 3 s9) := by rfl

/-- V-ENC-01 and V-ENC-02. -/
theorem test_decode_reserved :
    decode (.inp 0x0230000000000000000#74) = .error .reservedKind ∧
      decode (.inp 0x3230000000000000000#74) = .error .reservedKind := by exact ⟨rfl, rfl⟩

/-- V-ENC-03. -/
theorem test_decode_time_out_of_range :
    decode (.inp 0x1238000000000000000#74) = .error .timeOutOfRange := by rfl

/-- P1 line 2, as the requester writes it. -/
theorem test_encode_byte : encode (.byte 0x23 0) = .inp 0x1230000000000000000#74 := by rfl

/-- 30_encoding.md R81: `FEED 00*2 @5 +10`. -/
theorem test_feed : feed [0x00, 0x00] 5 10 = [.byte 0 5, .byte 0 15] := by rfl

/-! ## The table's words as the host numbers them -/

theorem test_tableWord_rows :
    decodeTableWord 8 1 = some .reset ∧ decodeTableWord 80 0x1000000000000000000 = some (.byte 0 0) ∧
      decodeTableWord 80 0x2000000000000000000 = some .eos ∧ decodeTableWord 32 0 = some (.crc16 0 0 []) := by decide

theorem test_fetchWord_runs :
    step (State.reset.withFetchWord 80 0x2000000000000000000) =
      .next { State.reset with out := [.readFail] } := by rfl

/-! ## The datapath and the formats -/

/-- The examples of 40_checksum_engine.md R101 and R102. -/
theorem test_crc_datapath :
    crcRound 0x0001 = 0xA001 ∧ crcRound 0xFFFF = 0xDFFE ∧ crcByte 0xFFFF 0x00 = 0x40BF ∧
      crcByte 0xFFFF 0x31 = 0x947E ∧ crcByte 0x1234 0x56 = 0xE993 := by decide +kernel

/-- V-DEC-01: the header word of the PACKET of F11. -/
theorem test_headerWord :
    ({ packetType := 0x05, serialPrefix := 0x01, serial := 0x002A, payload := [0x10, 0x20, 0x30], time := 10 } :
      Packet).headerWord = 0x10501002A03000000000000000A#106 := by decide

/-- The frame F11 of 95_test_vectors.md, built from its fields. -/
theorem test_frame_encode : f11.encode = f11init ++ [0x9E] := by decide +kernel

/-! ## The transactions -/

/-- P1 line 12: the last byte of F11. -/
theorem test_byte_packet : ∃ u, exec (.byte 0x9E 10) (st f11init 9) = .next u ∧ u.len = 0 ∧ u.out = [.packet
    { packetType := 0x05, serialPrefix := 0x01, serial := 0x002A, payload := [0x10, 0x20, 0x30], time := 10 }] :=
  ⟨_, rfl, by decide +kernel, by decide +kernel⟩

/-- P4 line 7: a gap of 51 ms clears the partial frame before the append. -/
theorem test_byte_stale : ∃ u, exec (.byte 0x23 91) (st [0x23, 0x01, 0x00, 0x2A, 0x00] 40) = .next u ∧
    u.buffer = [0x23] ∧ u.out = [.none] := ⟨_, rfl, by decide, by decide⟩

/-- V-EOS-02. -/
theorem test_eos : ∃ u, exec .eos (st f11init 9) = .next u ∧ u.out = [.readFail] ∧ u.len = 10 ∧ u.tLast = 9 :=
  ⟨_, rfl, by decide, by decide, by decide⟩

/-- V-CRC-01: the check value of the block. -/
theorem test_crc16_check_value : ∃ u, exec (.crc16 0 9 s9) State.reset = .next u ∧ u.crcOut = [0x4B37] :=
  ⟨_, rfl, by decide +kernel⟩

/-- V-CRC-09: `10 + 0 > 9`. -/
theorem test_crc16_contract : exec (.crc16 10 0 s9) State.reset = .fault .contractViolation := by rfl

/-- V-RST-02: RESET discards the first part of a frame. -/
theorem test_reset : ∃ u, exec .reset (st f11init 9) = .next u ∧ u.len = 0 ∧ u.out = [] := ⟨_, rfl, rfl, rfl⟩

/-- V-RST-01: the first byte after RESET. -/
theorem test_byte_after_reset : ∃ r u, exec .reset (st f11init 9) = .next r ∧ exec (.byte 0x41 1000) r = .next u ∧
    u.len = 1 ∧ u.bufAt 0 = 0x41 ∧ u.tLast = 1000 ∧ u.out = [.none] := ⟨_, _, rfl, rfl, rfl, rfl, rfl, rfl⟩

/-! ## The hypotheses of the statements can be met -/

theorem witness_DecodeOfEncodeIsIdentity :
    (Instr.byte 0xFF 0x7FFFFFFFFFFFFFFF).wellFormed = true ∧ (Instr.crc16 0xFFFF 0xFFFF s9).wellFormed = true := by
  decide

theorem witness_EncodeOfDecodeIsIdentity :
    decode (.inp 0x1237FFFFFFFFFFFFFFF#74) = .ok (.byte 0x23 0x7FFFFFFFFFFFFFFF) ∧
      Instr.byte 0x23 0x7FFFFFFFFFFFFFFF ≠ .eos := ⟨rfl, by decide⟩

/-- Both ends of the time range: the last accepted and the first refused. -/
theorem witness_InWordSelectsTransaction :
    (∃ s : State, s.pending = [.inp (0b01#2 ++ 0x23#8 ++ 0x7FFFFFFFFFFFFFFF#64)] ∧
      (0x7FFFFFFFFFFFFFFF#64).toNat < 2 ^ 63) ∧
    (∃ s : State, s.pending = [.inp (0b01#2 ++ 0x23#8 ++ 0x8000000000000000#64)] ∧
      2 ^ 63 ≤ (0x8000000000000000#64).toNat) ∧
    (∃ s : State, s.pending = [.inp (0b10#2 ++ 0xFF#8 ++ 0x8000000000000000#64)]) ∧
    (∃ s : State, s.pending = [.inp (0b00#2 ++ 0x23#8 ++ 0#64)]) ∧
    (∃ s : State, s.pending = [.inp (0b11#2 ++ 0x23#8 ++ 0#64)]) :=
  ⟨⟨State.reset.withPending _, rfl, by decide⟩, ⟨State.reset.withPending _, rfl, by decide⟩,
    ⟨State.reset.withPending _, rfl⟩, ⟨State.reset.withPending _, rfl⟩, ⟨State.reset.withPending _, rfl⟩⟩

/-- The longest sequence the port carries, and one byte more. -/
theorem witness_ChecksumAndResetPortsSelectTransaction :
    (∃ (s : State) (seq : List Byte), s.pending = [.crc (0#16 ++ 0xFFFF#16) seq] ∧ seq.length ≤ 65535) ∧
    (∃ (s : State) (seq : List Byte), s.pending = [.crc (0#16 ++ 0xFFFF#16) seq] ∧ 65535 < seq.length) ∧
    (∃ s : State, s.pending = [.rst 1]) ∧ (∃ s : State, s.pending = [.rst 0]) :=
  ⟨⟨State.reset.withPending _, List.replicate 65535 0, rfl, List.length_replicate.le⟩,
    ⟨State.reset.withPending _, List.replicate 65536 0, rfl, List.length_replicate.ge⟩, ⟨State.reset.withPending _, rfl⟩,
    ⟨State.reset.withPending _, rfl⟩⟩

theorem witness_PacketHeaderWordCarriesFields :
    ∃ p : Packet, p.payload.length ≤ 248 ∧ p.payload.length = 248 :=
  ⟨⟨0x05, 0x01, 0x002A, List.replicate 248 0x55, 255⟩, List.length_replicate.le, List.length_replicate⟩

/-- `START + COUNT` at the length of the sequence and one above it (V-CRC-06, V-CRC-08). -/
theorem witness_Crc16RespondsWithinContract :
    ((9 : Word16).toNat + (0 : Word16).toNat ≤ s9.length) ∧ (s9.length < (8 : Word16).toNat + (2 : Word16).toNat) := by
  decide

theorem witness_ChecksumDetectsOneChangedByte : (0x9E : Byte) ≠ 0x9F := by decide

theorem witness_ScannerChecksumWithinContract : 0 + 10 < (st (f11init ++ [0x9E]) 10).len := by decide

theorem witness_Crc16CommutesWithOtherTransactions :
    (∀ c n q, Instr.byte 0x9E 10 ≠ .crc16 c n q) ∧ ∃ t, exec (.crc16 0 9 s9) (st f11init 9) = .next t :=
  ⟨fun _ _ _ h => (by cases h), _, rfl⟩

/-- The example of 41_frame_scanner.md R121: 91 clears, 90 does not; and an empty buffer. -/
theorem witness_StalenessCheckClearsOnlyLen :
    (0 < (st [1, 2, 3, 4, 5] 40).len ∧ 50 < ((91#64).toNat : Int) - ((st [1, 2, 3, 4, 5] 40).tLast.toNat : Int)) ∧
    (((90#64).toNat : Int) - ((st [1, 2, 3, 4, 5] 40).tLast.toNat : Int) ≤ 50) ∧ State.reset.len = 0 := by decide

theorem witness_OverflowCheckClearsOnlyLen :
    255 < ({ State.reset with len := 256 } : State).len ∧ ({ State.reset with len := 255 } : State).len ≤ 255 := by decide

theorem witness_EvictingByteRestartsAccumulation :
    (0 < (st [1, 2, 3, 4, 5] 40).len ∧ (st [1, 2, 3, 4, 5] 40).tLast.toNat + 50 < (91#64).toNat) ∧
    255 < ({ State.reset with len := 256 } : State).len := by decide

theorem witness_BufferIsSuffixOfDeliveredBytes :
    ∃ s t : State, s.pending = [((0x41 : Byte), (100 : Timestamp)), (0x42, 151)].map (fun p => encode (.byte p.1 p.2)) ∧
      run 2 s = .next t ∧ t.buffer = [0x42] :=
  ⟨State.reset.withPending _, _, rfl, rfl, rfl⟩

theorem witness_ByteWithoutMatchKeepsBuffer : ∀ j, ¬ frameIn (scannedBytes State.reset 0x41 100) j := by
  intro j h
  have h1 : j + 10 < 1 := h.1
  omega

/-- V-SCN-05: a stray marker and a junk byte ahead of F11. -/
theorem witness_ByteWithMatchEmitsPacketAndClears :
    frameIn (scannedBytes (st (0x23 :: 0xFF :: f11init) 11) 0x9E 12) 2 ∧
      ∀ j < 2, ¬ frameIn (scannedBytes (st (0x23 :: 0xFF :: f11init) 11) 0x9E 12) j := by
  unfold frameIn
  decide +kernel

theorem witness_ByteWritesOneBufferByte : ∃ u, exec (.byte 0x9E 10) (st f11init 9) = .next u := ⟨_, rfl⟩

/-- The tenth byte of a buffer. -/
theorem witness_TenBytesOrFewerNeverConfirm : appendIndex (st [1, 2, 3, 4, 5, 6, 7, 8, 9] 0) 1 + 1 ≤ 10 := by decide

/-- V-SCN-05 again, from the frame's fields. -/
theorem witness_LastByteOfWireFrameIsDecoded :
    3 ≤ f11.payload.length ∧ [0x23#8, 0xFF#8].length + (f11.payload.length + 8) ≤ 256 ∧
    (st (0x23 :: 0xFF :: f11init) 11).buffer ++ [0x9E] = [0x23, 0xFF] ++ f11.encode ∧
    (12#64).toNat ≤ (st (0x23 :: 0xFF :: f11init) 11).tLast.toNat + 50 ∧
    ∀ j < 2, ¬ frameIn ([0x23, 0xFF] ++ f11.encode) j := by
  unfold frameIn
  decide +kernel

/-- The arrival times of program P1. -/
def p1Times : List Timestamp := [0, 1, 2, 3, 4, 5, 6, 7, 8, 9, 10]

theorem p1Times_length : p1Times.length = f11.encode.length := by rw [Frame.encode_length]; rfl

theorem p1Times_inRange : ∀ t ∈ p1Times, t.toNat < 2 ^ 63 := by simp [p1Times]

theorem p1Times_gaps : ∀ k < 10, (p1Times.getD (k + 1) 0).toNat ≤ (p1Times.getD k 0).toNat + 50 := by decide

theorem f11_no_earlier_frame : ∀ n < f11.encode.length, ∀ j, ¬ frameIn (f11.encode.take n) j := by
  intro n hn j h
  have h1 := h.1
  have h2 : f11.payload.length = 3 := rfl
  rw [List.length_take] at h1
  rw [Frame.encode_length] at hn h1
  omega

/-- Program P1. -/
theorem witness_WireFrameSentInTimeIsDecoded :
    3 ≤ f11.payload.length ∧ f11.payload.length ≤ 248 ∧ p1Times.length = f11.encode.length ∧
      (∀ t ∈ p1Times, t.toNat < 2 ^ 63) ∧
      (∀ k, k + 1 < p1Times.length → (p1Times.getD (k + 1) 0).toNat ≤ (p1Times.getD k 0).toNat + 50) ∧
      (∀ n < f11.encode.length, ∀ j, ¬ frameIn (f11.encode.take n) j) ∧
      ∃ s : State, s.len = 0 ∧ s.pending = List.zipWith (fun b t => encode (.byte b t)) f11.encode p1Times := by
  have hl : p1Times.length = 11 := rfl
  exact ⟨by decide, by decide, p1Times_length, p1Times_inRange, fun k hk => p1Times_gaps k (by omega),
    f11_no_earlier_frame, State.reset.withPending _, rfl, rfl⟩

theorem witness_EosRunDoesNotRefreshTime :
    ∃ s : State, s.pending = [((0xFF : Byte), (12345 : Timestamp)), (0, 0)].map
      (fun p => Request.inp (0b10#2 ++ p.1 ++ p.2)) ++ [.rst 1] := ⟨State.reset.withPending _, rfl⟩

theorem witness_LastTimeIsWrittenByByteOnly :
    (Instr.byte 0x41 100 ≠ .reset ∧ ∃ u, exec (.byte 0x41 100) State.reset = .next u) ∧
    (Instr.eos ≠ .reset ∧ (∀ b t, Instr.eos ≠ .byte b t) ∧ ∃ u, exec .eos State.reset = .next u) :=
  ⟨⟨by decide, _, rfl⟩, by decide, fun _ _ h => (by cases h), _, rfl⟩

theorem witness_StepRunsDecodedTransaction :
    (∃ s : State, s.pending = [.inp 0x2000000000000000000#74] ∧ decode (.inp 0x2000000000000000000#74) = .ok .eos) ∧
    (∃ s : State, s.pending = [.inp 0#74] ∧ decode (.inp 0#74) = .error .reservedKind) :=
  ⟨⟨State.reset.withPending _, rfl, rfl⟩, State.reset.withPending _, rfl, rfl⟩

theorem witness_IdleBlockKeepsState : (st f11init 9).pending = [] := rfl

/-- A BYTE that confirms, a BYTE that does not, an EOS and a RESET, each with a next state. -/
theorem witness_OneEventPerScannerTransaction :
    ((∃ u, exec (.byte 0x9E 10) (st f11init 9) = .next u) ∧ ∃ j, frameIn (scannedBytes (st f11init 9) 0x9E 10) j) ∧
    ((∃ u, exec (.byte 0x41 100) State.reset = .next u) ∧ ∀ j, ¬ frameIn (scannedBytes State.reset 0x41 100) j) ∧
    (∃ u, exec .eos State.reset = .next u) ∧
    ((∃ u, exec .reset State.reset = .next u) ∧ (∀ b t, Instr.reset ≠ .byte b t) ∧ Instr.reset ≠ .eos) := by
  refine ⟨⟨⟨_, rfl⟩, 0, ?_⟩, ⟨⟨_, rfl⟩, witness_ByteWithoutMatchKeepsBuffer⟩, ⟨_, rfl⟩, ⟨_, rfl⟩,
    fun _ _ h => (by cases h), by decide⟩
  unfold frameIn
  decide +kernel

theorem witness_StopsAreContractViolationsOrBadRequests :
    step (State.reset.withPending [.crc 0x000A0000#32 s9]) = .fault .contractViolation ∧
      step (State.reset.withPending [.inp 0#74]) = .refused (.badRequest .reservedKind) := ⟨rfl, rfl⟩

/-- A state with a buffered byte and a BYTE to come. -/
theorem witness_StepKeepsInvariant :
    ∃ s t : State, s.len = 1 ∧ s.Inv ∧ step s = .next t ∧ t.len = 2 := by
  refine ⟨(st [0x41] 100).withPending [encode (.byte 0x42 150)], _, rfl, ⟨by decide, by decide, ?_, by decide, ?_⟩, rfl, rfl⟩
  · intro i hi
    have : i = 0 := Nat.lt_one_iff.mp hi
    subst this
    decide
  · intro e he
    cases he

/-- Two different states with an empty buffer: other bytes in `BUF`, another `T_LAST`. -/
theorem witness_HiddenStateCannotBeObserved :
    ∃ s s' : State, s ≠ s' ∧ s.Agree s' :=
  ⟨State.reset, { State.reset with buf := [(0, 0x23)], tLast := 7 }, by decide,
    ⟨rfl, rfl, fun h => absurd h (Nat.lt_irrefl 0), rfl, rfl, rfl⟩⟩

theorem witness_DutifulRequesterNeverStopsMachine :
    (State.reset.withPending [.rst 1, encode (.byte 0x41 100), encode .eos, encode (.crc16 9 0 s9)]).dutiful = true := by
  decide

end Sys2Proof.Tests
end

section
/-! The scope family (00_scope.md): what one step does with the next request. -/

namespace Sys2Proof.Proofs

open Sys2Proof.Machine

/-- Settles O34: the two clauses are the step rules of a request that decodes and of one that does not; taking the
request is `State.withPending` by definition. -/
theorem stepRunsDecodedTransaction : Obligations.StepRunsDecodedTransaction := by
  intro s r rest hpending
  constructor
  · intro i hdecode
    exact step_ok hpending hdecode
  · intro why hdecode
    exact step_error hpending hdecode

end Sys2Proof.Proofs
end

section
/-! The state family (10_state.md), its shared facts: every next state a transaction can answer, by transaction; and a
decoded transaction's operands lie in their ranges. -/

namespace Sys2Proof

/-- What the decoder of the scanner input accepts can be carried by it (30_encoding.md R63, R64). -/
theorem wellFormed_of_decodeIn {w : BitVec 74} {i : Instr} (h : decodeIn w = .ok i) : i.wellFormed = true := by
  unfold decodeIn at h
  split at h
  · split at h
    · cases h
    · rename_i htime
      cases h
      simpa [Instr.wellFormed, Timestamp.inRange] using htime
  · split at h
    · cases h; rfl
    · cases h

/-- The decoder answers only transactions that the ports can carry. -/
theorem wellFormed_of_decode {r : Request} {i : Instr} (h : decode r = .ok i) : i.wellFormed = true := by
  cases r with
  | rst v =>
    simp only [decode, decodeRst] at h
    split at h
    · cases h; rfl
    · cases h
  | inp w => exact wellFormed_of_decodeIn h
  | crc w seq =>
    simp only [decode, decodeCrc] at h
    split at h
    · rename_i hlen
      cases h
      exact decide_eq_true hlen
    · cases h

namespace Machine

/-- Every next state that a transaction can answer. -/
theorem exec_next_cases {i : Instr} {s u : State} (h : exec i s = .next u) :
    (i = .reset ∧ u = s.unspecify.clear) ∨
      (∃ b t, i = .byte b t ∧ (s.accumulate b t).scan = none ∧ u = (s.accumulate b t).emit .none) ∨
      (∃ b t j, i = .byte b t ∧ (s.accumulate b t).scan = some j ∧
        u = ((s.accumulate b t).emit (.packet ((s.accumulate b t).packetAt j t))).clear) ∨
      (i = .eos ∧ u = s.emit .readFail) ∨
      (∃ start count seq, i = .crc16 start count seq ∧
        u = s.respond (crcLoop seq count.toNat start.toNat config.crcInit)) := by
  cases i with
  | reset => cases h; exact .inl ⟨rfl, rfl⟩
  | byte b t =>
    rcases execByte_cases b t s with ⟨hscan, hexec⟩ | ⟨j, hscan, -, hexec⟩
    · cases hexec.symm.trans h
      exact .inr (.inl ⟨b, t, rfl, hscan, rfl⟩)
    · cases hexec.symm.trans h
      exact .inr (.inr (.inl ⟨b, t, j, rfl, hscan, rfl⟩))
  | eos => cases h; exact .inr (.inr (.inr (.inl ⟨rfl, rfl⟩)))
  | crc16 start count seq =>
    rcases execCrc16_cases start count seq s with ⟨-, hexec⟩ | ⟨-, hexec⟩
    · cases hexec.symm.trans h
    · cases hexec.symm.trans h
      exact .inr (.inr (.inr (.inr ⟨start, count, seq, rfl, rfl⟩)))

end Machine

end Sys2Proof
end

section
/-! The state family (10_state.md), the invariant of the block: every operation on the state keeps it, so every
transaction whose operands lie in their ranges does. -/

namespace Sys2Proof.Machine

/-- The packet of a confirmed frame is one the block may produce: with `LEN` from 11 to 256 its payload has 3 to 248
bytes (30_encoding.md R78, R79). -/
theorem OutEvent.wf_packetAt {s : State} {i : Nat} {t : Timestamp} (hi : i + 10 < s.len) (hlen : s.len ≤ 256)
    (ht : Timestamp.inRange t = true) : OutEvent.wf (.packet (s.packetAt i t)) = true := by
  have hpayload : (s.packetAt i t).payload.length = s.len - 2 - (i + 6) := s.bufSlice_length (i + 6) (s.len - 2)
  simp only [OutEvent.wf, hpayload, Bool.and_eq_true, decide_eq_true_eq]
  exact ⟨⟨by omega, by omega⟩, ht⟩

namespace State.Inv

variable {s : State}

theorem clear (h : s.Inv) : s.clear.Inv :=
  ⟨h.bufWf, Nat.zero_le _, fun _ hi => absurd hi (Nat.not_lt_zero _), h.timeInRange, h.eventsWf⟩

theorem emit (h : s.Inv) {e : OutEvent} (he : e.wf = true) : (s.emit e).Inv := by
  refine ⟨h.bufWf, h.lenLe, h.written, h.timeInRange, fun e' he' => ?_⟩
  rcases List.mem_append.mp he' with hold | hnew
  · exact h.eventsWf e' hold
  · rwa [List.mem_singleton.mp hnew]

theorem respond (h : s.Inv) (v : Word16) : (s.respond v).Inv :=
  ⟨h.bufWf, h.lenLe, h.written, h.timeInRange, h.eventsWf⟩

theorem withPending (h : s.Inv) (rest : List Request) : (s.withPending rest).Inv :=
  ⟨h.bufWf, h.lenLe, h.written, h.timeInRange, h.eventsWf⟩

/-- What RESET leaves: the free `T_LAST` is 63 bits wide, so it lies in its range (10_state.md R20). -/
theorem unspecify_clear (h : s.Inv) : s.unspecify.clear.Inv := by
  refine ⟨Memory.wf_nil, Nat.zero_le _, fun _ hi => absurd hi (Nat.not_lt_zero _), ?_, h.eventsWf⟩
  rw [clear_tLast, unspecify_tLast, Timestamp.inRange_iff, BitVec.toNat_setWidth]
  exact lt_of_le_of_lt (Nat.mod_le _ _) (Config.freeTime (s.draws + 1)).isLt

/-- Phases 1 to 3 of a BYTE: the append writes inside `BUF[0..256)`, and each byte below the new `LEN` is its own or
was written before. -/
theorem accumulate (h : s.Inv) (b : Byte) {t : Timestamp} (ht : Timestamp.inRange t = true) :
    (s.accumulate b t).Inv := by
  have hidx := appendIndex_le s t
  have hlen := appendIndex_le_len s t
  rw [accumulate_eq]
  refine ⟨Memory.wf_write b (by omega) h.bufWf, Nat.succ_le_succ hidx, fun i hi => ?_, ht, h.eventsWf⟩
  by_cases hnew : i = appendIndex s t
  · simp [hnew, Memory.read_write_same]
  · have hold : i < appendIndex s t := by
      have : i < appendIndex s t + 1 := hi
      omega
    simpa [Memory.read_write_other _ _ hnew] using h.written i (hold.trans_le hlen)

/-- A transaction that the ports can carry keeps the invariant. -/
theorem exec (h : s.Inv) {i : Instr} {u : State} (hi : i.wellFormed = true) (hu : exec i s = .next u) : u.Inv := by
  rcases exec_next_cases hu with ⟨-, rfl⟩ | ⟨b, t, rfl, -, rfl⟩ | ⟨b, t, j, rfl, hscan, rfl⟩ | ⟨-, rfl⟩ |
    ⟨_, _, _, -, rfl⟩
  · exact h.unspecify_clear
  · exact (h.accumulate b hi).emit rfl
  · have hacc := h.accumulate b hi
    exact (hacc.emit (OutEvent.wf_packetAt (scan_eq_some hscan).1 hacc.lenLe hi)).clear
  · exact h.emit rfl
  · exact h.respond _

end State.Inv

end Sys2Proof.Machine

namespace Sys2Proof.Proofs

open Sys2Proof.Machine

/-- Settles O38: by the three ways of a step; a transaction that runs was decoded, so its operands lie in their
ranges. -/
theorem stepKeepsInvariant : Obligations.StepKeepsInvariant := by
  intro s t hinv hstep
  rcases step_cases s with ⟨-, hidle⟩ | ⟨r, rest, i, -, hdecode, hrun⟩ | ⟨_, _, _, -, -, hrefuse⟩
  · cases hidle.symm.trans hstep
    exact hinv
  · exact (hinv.withPending rest).exec (wellFormed_of_decode hdecode) (hrun.symm.trans hstep)
  · cases hrefuse.symm.trans hstep

/-- Settles O39: nothing is buffered, written or produced, so the invariant asks nothing of `BUF` or the events. -/
theorem resetStateIsEmptyAndSound : Obligations.ResetStateIsEmptyAndSound := by
  refine ⟨rfl, rfl, Memory.wf_nil, Nat.zero_le _, fun _ hi => ?_, rfl, fun _ he => ?_⟩
  · exact absurd hi (Nat.not_lt_zero _)
  · exact absurd he List.not_mem_nil

/-- Settles O33: by the next states of the transactions; the append of a BYTE writes `T_LAST`, and the emit and the
respond of the others leave it. -/
theorem lastTimeIsWrittenByByteOnly : Obligations.LastTimeIsWrittenByByteOnly := by
  intro i s u hreset hexec
  rcases exec_next_cases hexec with ⟨rfl, -⟩ | ⟨b, t, rfl, -, rfl⟩ | ⟨b, t, j, rfl, -, rfl⟩ | ⟨rfl, rfl⟩ |
    ⟨_, _, _, rfl, rfl⟩
  · exact absurd rfl hreset
  · exact ⟨fun _ _ hbyte => by cases hbyte; rfl, fun hother => absurd rfl (hother b t)⟩
  · exact ⟨fun _ _ hbyte => by cases hbyte; rfl, fun hother => absurd rfl (hother b t)⟩
  · exact ⟨fun _ _ hbyte => (by cases hbyte), fun _ => rfl⟩
  · exact ⟨fun _ _ hbyte => (by cases hbyte), fun _ => rfl⟩

end Sys2Proof.Proofs
end

section
/-! The state family (10_state.md), what cannot be observed: agreement of two states (R21, R24) is kept by every
operation, so a step from one is matched by the step from the other. What a BYTE reads is the buffer `BUF[0..LEN)`, and
`T_LAST` only where the buffer holds a byte. -/

namespace Sys2Proof.Machine

namespace State.Agree

variable {s s' : State}

/-! ### What a transaction reads -/

theorem bufAt (h : s.Agree s') {i : Nat} (hi : i < s.len) : s.bufAt i = s'.bufAt i := by
  have hi' : i < s'.len := h.len ▸ hi
  rw [← buffer_getD s hi, ← buffer_getD s' hi', h.buffer]

theorem bufSlice (h : s.Agree s') (a : Nat) {b : Nat} (hb : b ≤ s.len) : s.bufSlice a b = s'.bufSlice a b := by
  have hb' : b ≤ s'.len := h.len ▸ hb
  rw [bufSlice_eq_take_drop s hb, bufSlice_eq_take_drop s' hb', h.buffer]

/-- The evictions read `T_LAST` only where the buffer holds a byte (10_state.md R24). -/
theorem appendIndex (h : s.Agree s') (t : Timestamp) : appendIndex s t = appendIndex s' t := by
  unfold Machine.appendIndex
  rw [← h.len]
  by_cases hpos : 0 < s.len
  · rw [h.time hpos]
  · simp [hpos]

/-- A candidate's tests are about the buffer alone. -/
theorem confirms (h : s.Agree s') {i : Nat} (hi : i + 10 < s.len) : s.confirms i = s'.confirms i := by
  have hi' : i + 10 < s'.len := h.len ▸ hi
  rw [Bool.eq_iff_iff, confirms_iff_frameIn s hi, confirms_iff_frameIn s' hi', h.buffer]

theorem scanFrom (h : s.Agree s') (n i : Nat) : s.scanFrom n i = s'.scanFrom n i := by
  induction n generalizing i with
  | zero => rfl
  | succ n ih =>
    rw [scanFrom_succ, scanFrom_succ, ← h.len, ih]
    by_cases hi : i + 10 < s.len
    · rw [h.confirms hi]
    · rw [if_neg hi, if_neg hi]

theorem scan (h : s.Agree s') : s.scan = s'.scan := by
  unfold State.scan
  rw [← h.len, h.scanFrom]

/-- Every field of the packet lies inside the buffer. -/
theorem packetAt (h : s.Agree s') {i : Nat} (hi : i + 10 < s.len) (t : Timestamp) :
    s.packetAt i t = s'.packetAt i t := by
  unfold State.packetAt typeAt prefixAt serialAt payloadAt
  rw [h.bufAt (i := i + 1) (by omega), h.bufAt (i := i + 2) (by omega), h.bufAt (i := i + 3) (by omega),
    h.bufAt (i := i + 5) (by omega), h.bufSlice (i + 6) (Nat.sub_le _ _), h.len]

/-! ### What a transaction writes -/

theorem clear (h : s.Agree s') : s.clear.Agree s'.clear :=
  ⟨rfl, rfl, fun hpos => absurd hpos (Nat.lt_irrefl 0), h.out, h.crcOut, h.pending⟩

theorem emit (h : s.Agree s') (e : OutEvent) : (s.emit e).Agree (s'.emit e) :=
  ⟨h.len, h.buffer, h.time, congrArg (· ++ [e]) h.out, h.crcOut, h.pending⟩

theorem respond (h : s.Agree s') (v : Word16) : (s.respond v).Agree (s'.respond v) :=
  ⟨h.len, h.buffer, h.time, h.out, congrArg (· ++ [v]) h.crcOut, h.pending⟩

theorem withPending (h : s.Agree s') (rest : List Request) : (s.withPending rest).Agree (s'.withPending rest) :=
  ⟨h.len, h.buffer, h.time, h.out, h.crcOut, rfl⟩

/-- After RESET the buffer is empty, so the free values drawn for `BUF` and `T_LAST` need not be the same. -/
theorem unspecify_clear (h : s.Agree s') : s.unspecify.clear.Agree s'.unspecify.clear :=
  ⟨rfl, rfl, fun hpos => absurd hpos (Nat.lt_irrefl 0), h.out, h.crcOut, h.pending⟩

theorem accumulate (h : s.Agree s') (b : Byte) (t : Timestamp) : (s.accumulate b t).Agree (s'.accumulate b t) where
  len := by rw [accumulate_len, accumulate_len, evicted_len_eq_appendIndex, evicted_len_eq_appendIndex, h.appendIndex]
  buffer := by
    rw [accumulate_buffer, accumulate_buffer, scannedBytes, scannedBytes, h.buffer, h.appendIndex]
  time := fun _ => rfl
  out := by rw [accumulate_out, accumulate_out, h.out]
  crcOut := by rw [accumulate_crcOut, accumulate_crcOut, h.crcOut]
  pending := by rw [accumulate_pending, accumulate_pending, h.pending]

/-! ### The transactions -/

/-- Phases 4 and 5 of a BYTE: the same candidate is confirmed, if any, and the same event produced. -/
theorem scanAndEmit (h : s.Agree s') (t : Timestamp) : (scanAndEmit t s).Agree (scanAndEmit t s') := by
  unfold Machine.scanAndEmit
  rw [← h.scan]
  cases hscan : s.scan with
  | none => exact h.emit .none
  | some i =>
    simp only [decodeEmitClear, ← h.packetAt (scan_eq_some hscan).1]
    exact (h.emit _).clear

theorem execCrc16 (h : s.Agree s') (start count : Word16) (seq : List Byte) :
    AgreeOutcome (execCrc16 start count seq s) (execCrc16 start count seq s') := by
  unfold Machine.execCrc16
  cases crc16 seq start.toNat count.toNat with
  | none => rfl
  | some v => exact h.respond v

theorem exec (h : s.Agree s') (i : Instr) : AgreeOutcome (exec i s) (exec i s') := by
  cases i with
  | reset => exact h.unspecify_clear
  | byte b t => exact (h.accumulate b t).scanAndEmit t
  | eos => exact h.emit .readFail
  | crc16 start count seq => exact h.execCrc16 start count seq

/-- The commuting step: states that agree take the same request and answer outcomes that agree. -/
theorem step (h : s.Agree s') : AgreeOutcome (step s) (step s') := by
  rcases step_cases s with ⟨hnil, hs⟩ | ⟨r, rest, i, hcons, hdecode, hs⟩ | ⟨r, rest, why, hcons, hdecode, hs⟩
  · rw [hs, step_idle (h.pending ▸ hnil)]
    exact h
  · rw [hs, step_ok (h.pending ▸ hcons) hdecode]
    exact (h.withPending rest).exec i
  · rw [hs, step_error (h.pending ▸ hcons) hdecode]
    rfl

end State.Agree

/-- Outcomes that agree are two next states that agree, or the same stop. -/
theorem agreeOutcome_cases {o o' : Host.Outcome State Fault Refusal} (h : AgreeOutcome o o') :
    (∃ t t', o = .next t ∧ o' = .next t' ∧ t.Agree t') ∨ (∃ f, o = .fault f ∧ o' = .fault f) ∨
      (∃ r, o = .refused r ∧ o' = .refused r) := by
  cases o with
  | next t =>
    cases o' with
    | next t' => exact .inl ⟨t, t', rfl, rfl, h⟩
    | fault => exact h.elim
    | refused => exact h.elim
  | fault f =>
    cases o' with
    | next => exact h.elim
    | fault f' => exact .inr (.inl ⟨f, rfl, congrArg _ (Eq.symm h)⟩)
    | refused => exact h.elim
  | refused r =>
    cases o' with
    | next => exact h.elim
    | fault => exact h.elim
    | refused r' => exact .inr (.inr ⟨r, rfl, congrArg _ (Eq.symm h)⟩)

theorem run_succ_of_fault {k : Nat} {s : State} {f : Fault} (h : step s = .fault f) : run (k + 1) s = .fault f := by
  rw [run, h]

theorem run_succ_of_refused {k : Nat} {s : State} {r : Refusal} (h : step s = .refused r) :
    run (k + 1) s = .refused r := by
  rw [run, h]

end Sys2Proof.Machine

namespace Sys2Proof.Proofs

open Sys2Proof.Machine

/-- Settles O40: by induction on the number of steps; one step of states that agree answers states that agree, or the
same stop. -/
theorem hiddenStateCannotBeObserved : Obligations.HiddenStateCannotBeObserved := by
  intro k
  induction k with
  | zero => exact fun _ _ hagree => hagree
  | succ k ih =>
    intro s s' hagree
    rcases agreeOutcome_cases hagree.step with ⟨t, t', hs, hs', hnext⟩ | ⟨f, hs, hs'⟩ | ⟨r, hs, hs'⟩
    · rw [run_succ_of_next hs, run_succ_of_next hs']
      exact ih t t' hnext
    · rw [run_succ_of_fault hs, run_succ_of_fault hs']
      rfl
    · rw [run_succ_of_refused hs, run_succ_of_refused hs']
      rfl

end Sys2Proof.Proofs
end

section
/-! The memory family (20_memory.md): what one BYTE does to the buffer `BUF[0..LEN)`, and the arrival order that a run
of BYTE requests keeps (R51). -/

namespace Sys2Proof

/-- The decoder reads a BYTE back from its encoding, or refuses a timestamp out of range (30_encoding.md R63). -/
theorem decode_encode_byte (b : Byte) (t : Timestamp) :
    decode (encode (.byte b t)) = if t.getLsbD 63 then .error .timeOutOfRange else .ok (.byte b t) := by
  simp [decode, encode, decodeIn]

namespace Machine

namespace State

@[simp] theorem clear_buffer (s : State) : s.clear.buffer = [] := rfl
@[simp] theorem emit_buffer (s : State) (e : OutEvent) : (s.emit e).buffer = s.buffer := rfl
@[simp] theorem withPending_buffer (s : State) (q : List Request) : (s.withPending q).buffer = s.buffer := rfl

end State

/-- The two evictions leave the whole buffer or nothing of it (10_state.md R21). -/
theorem appendIndex_eq_zero_or_len (s : State) (t : Timestamp) : appendIndex s t = 0 ∨ appendIndex s t = s.len := by
  unfold appendIndex
  split
  · exact .inl rfl
  · exact .inr rfl

theorem scannedBytes_suffix (s : State) (b : Byte) (t : Timestamp) : scannedBytes s b t <:+ s.buffer ++ [b] := by
  unfold scannedBytes
  rcases appendIndex_eq_zero_or_len s t with h | h
  · rw [h, List.take_zero]
    exact List.suffix_append s.buffer [b]
  · rw [h, ← s.buffer_length, List.take_length]

/-- A BYTE keeps the arrival order: it leaves the bytes it scanned, or none. -/
theorem buffer_suffix_of_exec_byte {b : Byte} {t : Timestamp} {s u : State} (h : exec (.byte b t) s = .next u) :
    u.buffer <:+ s.buffer ++ [b] := by
  rcases execByte_cases b t s with ⟨-, hexec⟩ | ⟨i, -, -, hexec⟩
  · cases hexec.symm.trans h
    rw [State.emit_buffer, accumulate_buffer]
    exact scannedBytes_suffix s b t
  · cases hexec.symm.trans h
    rw [State.clear_buffer]
    exact List.nil_suffix

theorem pending_of_exec_byte {b : Byte} {t : Timestamp} {s u : State} (h : exec (.byte b t) s = .next u) :
    u.pending = s.pending := by
  rcases execByte_cases b t s with ⟨-, hexec⟩ | ⟨i, -, -, hexec⟩
  · cases hexec.symm.trans h
    rw [State.emit_pending, State.accumulate_pending]
  · cases hexec.symm.trans h
    rw [State.clear_pending, State.emit_pending, State.accumulate_pending]

/-- A step that answers on a BYTE request is that BYTE: it takes the request and keeps the arrival order (20_memory.md
R51). -/
theorem pending_and_buffer_of_step_byte {b : Byte} {t : Timestamp} {rest : List Request} {s u : State}
    (hpending : s.pending = encode (.byte b t) :: rest) (hstep : step s = .next u) :
    u.pending = rest ∧ u.buffer <:+ s.buffer ++ [b] := by
  have hdecode := decode_encode_byte b t
  split at hdecode
  · cases (step_error hpending hdecode).symm.trans hstep
  · have hexec := (step_ok hpending hdecode).symm.trans hstep
    have hbuffer := buffer_suffix_of_exec_byte hexec
    rw [State.withPending_buffer] at hbuffer
    exact ⟨pending_of_exec_byte hexec, hbuffer⟩

/-- A run that answers a next state answers one at its first step. -/
theorem step_next_of_run_succ_next {k : Nat} {s t : State} (h : run (k + 1) s = .next t) :
    ∃ u, step s = .next u ∧ run k u = .next t := by
  cases hstep : step s with
  | next u => exact ⟨u, rfl, (run_succ_of_next hstep).symm.trans h⟩
  | fault f => cases (run_succ_of_fault hstep).symm.trans h
  | refused r => cases (run_succ_of_refused hstep).symm.trans h

end Machine

end Sys2Proof

namespace Sys2Proof.Proofs

open Sys2Proof.Machine

/-- Settles O20: by induction on the delivered bytes. The first BYTE leaves a suffix of the buffer and its own byte, and
what the rest of the run leaves is a suffix of that with the later bytes behind it. -/
theorem bufferIsSuffixOfDeliveredBytes : Obligations.BufferIsSuffixOfDeliveredBytes := by
  intro bs
  induction bs with
  | nil =>
    intro s t _ hrun
    cases hrun
    rw [List.map_nil, List.append_nil]
  | cons p bs ih =>
    intro s t hpending hrun
    obtain ⟨u, hstep, hrest⟩ := step_next_of_run_succ_next hrun
    obtain ⟨hpending', hfirst⟩ := pending_and_buffer_of_step_byte hpending hstep
    have hlater : t.buffer <:+ u.buffer ++ bs.map Prod.fst := ih u t hpending' hrest
    have hboth : u.buffer ++ bs.map Prod.fst <:+ (s.buffer ++ [p.1]) ++ bs.map Prod.fst :=
      List.suffix_append_self_iff.mpr hfirst
    rw [List.map_cons, List.append_cons]
    exact hlater.trans hboth

end Sys2Proof.Proofs
end

section
/-! The encoding family (30_encoding.md), the port words: what the decoder reads from a word given by its fields, and
the words it reads a transaction from. -/

namespace Sys2Proof

/-! ### A word given by its fields -/

theorem decode_inWord_byte (d : Byte) {t : Timestamp} (ht : t.toNat < 2 ^ 63) :
    decode (.inp (inWord 0b01#2 d t)) = .ok (.byte d t) := by
  have hbit : ¬ t.getLsbD 63 = true := fun h => absurd ((getLsbD_63_iff t).mp h) (Nat.not_le.mpr ht)
  exact (decode_encode_byte d t).trans (if_neg hbit)

theorem decode_inWord_byte_late (d : Byte) {t : Timestamp} (ht : 2 ^ 63 ≤ t.toNat) :
    decode (.inp (inWord 0b01#2 d t)) = .error .timeOutOfRange :=
  (decode_encode_byte d t).trans (if_pos ((getLsbD_63_iff t).mpr ht))

/-- `DATA` and `TIME` of an EOS word are ignored (30_encoding.md R63). -/
theorem decode_inWord_eos (d : Byte) (t : Timestamp) : decode (.inp (inWord 0b10#2 d t)) = .ok .eos := by
  simp [decode, decodeIn]

theorem decode_inWord_reserved {k : BitVec 2} (d : Byte) (t : Timestamp) (hk : k = 0b00#2 ∨ k = 0b11#2) :
    decode (.inp (inWord k d t)) = .error .reservedKind := by
  rcases hk with rfl | rfl <;> simp [decode, decodeIn]

theorem decode_crcWord (start count : Word16) {seq : List Byte} (hseq : seq.length ≤ 65535) :
    decode (.crc (crcWord start count) seq) = .ok (.crc16 start count seq) := by
  simp [decode, decodeCrc, hseq]

theorem decode_crcWord_long (start count : Word16) {seq : List Byte} (hseq : 65535 < seq.length) :
    decode (.crc (crcWord start count) seq) = .error .sequenceTooLong := by
  simp [decode, decodeCrc, Nat.not_le.mpr hseq]

/-! ### The words of a transaction -/

/-- What a scanner word that is not refused stands for. -/
theorem decodeIn_ok_cases {w : BitVec 74} {i : Instr} (h : decodeIn w = .ok i) :
    (inKind w = 0b01#2 ∧ (inTime w).toNat < 2 ^ 63 ∧ i = .byte (inData w) (inTime w)) ∨
      (inKind w = 0b10#2 ∧ i = .eos) := by
  have hwf := wellFormed_of_decodeIn h
  unfold decodeIn at h
  split at h
  · rename_i hkind
    split at h
    · cases h
    · cases h
      exact .inl ⟨hkind, (Timestamp.inRange_iff _).mp hwf, rfl⟩
  · split at h
    · rename_i hkind
      cases h
      exact .inr ⟨hkind, rfl⟩
    · cases h

theorem decode_inp_eq_byte_iff (w : BitVec 74) :
    (∃ b t, decode (.inp w) = .ok (.byte b t)) ↔ inKind w = 0b01#2 ∧ (inTime w).toNat < 2 ^ 63 := by
  constructor
  · rintro ⟨b, t, h⟩
    rcases decodeIn_ok_cases h with ⟨hkind, htime, -⟩ | ⟨-, heos⟩
    · exact ⟨hkind, htime⟩
    · cases heos
  · rintro ⟨hkind, htime⟩
    have h := decode_inWord_byte (inData w) htime
    rw [← hkind, inWord_fields] at h
    exact ⟨_, _, h⟩

theorem decode_inp_eq_eos_iff (w : BitVec 74) : decode (.inp w) = .ok .eos ↔ inKind w = 0b10#2 := by
  constructor
  · intro h
    rcases decodeIn_ok_cases h with ⟨-, -, hbyte⟩ | ⟨hkind, -⟩
    · cases hbyte
    · exact hkind
  · intro hkind
    have h := decode_inWord_eos (inData w) (inTime w)
    rwa [← hkind, inWord_fields] at h

/-- Every request that encodes a transaction, written from the transaction's operands. -/
theorem decode_ok_cases {r : Request} {i : Instr} (h : decode r = .ok i) :
    (r = .rst 1#1 ∧ i = .reset) ∨
      (∃ b t, r = .inp (inWord 0b01#2 b t) ∧ i = .byte b t) ∨
      (∃ d t, r = .inp (inWord 0b10#2 d t) ∧ i = .eos) ∨
      (∃ start count seq, r = .crc (crcWord start count) seq ∧ i = .crc16 start count seq) := by
  cases r with
  | rst v =>
    simp only [decode, decodeRst] at h
    split at h
    · rename_i hv
      cases h
      exact .inl ⟨congrArg _ hv, rfl⟩
    · cases h
  | inp w =>
    have hw := inWord_fields w
    rcases decodeIn_ok_cases h with ⟨hkind, -, rfl⟩ | ⟨hkind, rfl⟩
    · rw [hkind] at hw
      exact .inr (.inl ⟨_, _, congrArg _ hw.symm, rfl⟩)
    · rw [hkind] at hw
      exact .inr (.inr (.inl ⟨_, _, congrArg _ hw.symm, rfl⟩))
  | crc w seq =>
    simp only [decode, decodeCrc] at h
    split at h
    · cases h
      exact .inr (.inr (.inr ⟨_, _, seq, by rw [crcWord_fields], rfl⟩))
    · cases h

/-! ### The masks of the opcode table -/

theorem inWord_inj {k k' : BitVec 2} {d d' : Byte} {t t' : Timestamp} :
    inWord k d t = inWord k' d' t' ↔ k = k' ∧ d = d' ∧ t = t' := by
  constructor
  · intro h
    have hkind := congrArg inKind h
    have hdata := congrArg inData h
    have htime := congrArg inTime h
    rw [inKind_inWord, inKind_inWord] at hkind
    rw [inData_inWord, inData_inWord] at hdata
    rw [inTime_inWord, inTime_inWord] at htime
    exact ⟨hkind, hdata, htime⟩
  · rintro ⟨rfl, rfl, rfl⟩
    rfl

theorem and_twoPow_63_eq_zero_iff (t : Timestamp) : t &&& BitVec.twoPow 64 63 = 0#64 ↔ t.toNat < 2 ^ 63 := by
  rw [BitVec.and_twoPow, ← Nat.not_le, ← getLsbD_63_iff]
  split
  · rename_i hbit
    exact iff_of_false (by decide) (not_not_intro hbit)
  · rename_i hbit
    exact iff_of_true rfl hbit

/-- A scanner word under a mask that covers `KIND` and some bits of `TIME`. -/
theorem and_mask_eq_iff (w : BitVec 74) (k : BitVec 2) (m : Timestamp) :
    w &&& inWord 0b11#2 0#8 m = inWord k 0#8 0#64 ↔ inKind w = k ∧ inTime w &&& m = 0#64 := by
  have hones : inKind w &&& 0b11#2 = inKind w := BitVec.and_allOnes
  have hzeros : inData w &&& 0#8 = 0#8 := BitVec.and_zero
  conv_lhs => rw [← inWord_fields w]
  rw [inWord_and, inWord_inj, hones, hzeros]
  simp

theorem and_byteMask_eq_iff (w : BitVec 74) :
    w &&& 0x3008000000000000000#74 = 0x1000000000000000000#74 ↔
      inKind w = 0b01#2 ∧ (inTime w).toNat < 2 ^ 63 := by
  rw [← and_twoPow_63_eq_zero_iff]
  exact and_mask_eq_iff w 0b01#2 (BitVec.twoPow 64 63)

theorem and_eosMask_eq_iff (w : BitVec 74) :
    w &&& 0x3000000000000000000#74 = 0x2000000000000000000#74 ↔ inKind w = 0b10#2 := by
  have h := and_mask_eq_iff w 0b10#2 0#64
  rw [BitVec.and_zero, and_iff_left rfl] at h
  exact h

end Sys2Proof

namespace Sys2Proof.Proofs

open Sys2Proof.Machine

/-- Settles O1: by the transaction; the decoder reads every field of the word back, and the operand ranges are the tests
it makes. -/
theorem decodeOfEncodeIsIdentity : Obligations.DecodeOfEncodeIsIdentity := by
  intro i hwf
  cases i with
  | reset => rfl
  | byte b t => exact decode_inWord_byte b ((Timestamp.inRange_iff t).mp hwf)
  | eos => exact decode_inWord_eos 0#8 0#64
  | crc16 start count seq => exact decode_crcWord start count (of_decide_eq_true hwf)

/-- Settles O2: every request that decodes is written from the operands it decodes to. -/
theorem encodeOfDecodeIsIdentity : Obligations.EncodeOfDecodeIsIdentity := by
  intro r i hdecode hne
  rcases decode_ok_cases hdecode with ⟨rfl, rfl⟩ | ⟨b, t, rfl, rfl⟩ | ⟨d, t, -, rfl⟩ |
    ⟨start, count, seq, rfl, rfl⟩
  · rfl
  · rfl
  · exact absurd rfl hne
  · rfl

/-- Settles O3: the word is `inWord kind data time`; each clause is what the decoder reads from it, run or refused by
the step. -/
theorem inWordSelectsTransaction : Obligations.InWordSelectsTransaction := by
  intro s rest kind data time hpending
  refine ⟨?_, ?_, ?_, ?_⟩
  · rintro rfl htime
    exact step_ok hpending (decode_inWord_byte data htime)
  · rintro rfl htime
    exact step_error hpending (decode_inWord_byte_late data htime)
  · rintro rfl
    exact step_ok hpending (decode_inWord_eos data time)
  · intro hkind
    exact step_error hpending (decode_inWord_reserved data time hkind)

/-- Settles O5: the decoder and the mask each ask the same of `KIND` and, for BYTE, of bit 63 of `TIME`. -/
theorem opcodeTableAgreesWithDecoder : Obligations.OpcodeTableAgreesWithDecoder := by
  intro w
  exact ⟨(decode_inp_eq_byte_iff w).trans (and_byteMask_eq_iff w).symm,
    (decode_inp_eq_eos_iff w).trans (and_eosMask_eq_iff w).symm⟩

/-- Settles O4: as for the scanner word, by what the decoder reads from the checksum word and from `RST`. -/
theorem checksumAndResetPortsSelectTransaction : Obligations.ChecksumAndResetPortsSelectTransaction := by
  intro s rest start count seq
  refine ⟨fun hpending => ⟨fun hseq => ?_, fun hseq => ?_⟩, fun hpending => ?_, fun hpending => ?_⟩
  · exact step_ok hpending (decode_crcWord start count hseq)
  · exact step_error hpending (decode_crcWord_long start count hseq)
  · exact step_ok hpending rfl
  · exact step_error hpending rfl

/-- Settles O6: the decoder runs on the five words. -/
theorem sampleWordsDecodeAsWritten : Obligations.SampleWordsDecodeAsWritten := ⟨rfl, rfl, rfl, rfl, rfl⟩

end Sys2Proof.Proofs
end

section
/-! The encoding family, the output event and the 16-bit fields: the header word's fields and the big-endian values
(30_encoding.md R66, R72, R73). -/

namespace Sys2Proof.Machine

/-- No event has the status code 11 (30_encoding.md R67). -/
theorem OutEvent.status_ne_reserved (e : OutEvent) : e.status ≠ 0b11#2 := by
  cases e with
  | none => decide
  | packet p => exact (by decide : 0b01#2 ≠ 0b11#2)
  | readFail => decide

theorem be16_toNat (hi lo : Byte) : (be16 hi lo).toNat = hi.toNat * 256 + lo.toNat := toNat_concat hi lo

/-- The value of a header word (30_encoding.md R66); `PLEN` has 8 bits. -/
theorem Packet.headerWord_toNat (p : Packet) (hlen : p.payload.length < 2 ^ 8) :
    p.headerWord.toNat =
      ((((2 ^ 8 + p.packetType.toNat) * 2 ^ 8 + p.serialPrefix.toNat) * 2 ^ 16 + p.serial.toNat) * 2 ^ 8 +
        p.payload.length) * 2 ^ 64 + p.time.toNat := by
  have hplen : (BitVec.ofNat 8 p.payload.length).toNat = p.payload.length :=
    (BitVec.toNat_ofNat _ _).trans (Nat.mod_eq_of_lt hlen)
  have hstatus : (OutEvent.status (.packet p)).toNat = 1 := rfl
  unfold Packet.headerWord
  rw [toNat_concat, toNat_concat, toNat_concat, toNat_concat, toNat_concat, hplen, hstatus, Nat.one_mul]

/-- The bits `[hi:lo]` of a word as a number. -/
theorem toNat_extractLsb_eq_div_mod {n : Nat} (w : BitVec n) (hi lo : Nat) :
    (w.extractLsb hi lo).toNat = w.toNat / 2 ^ lo % 2 ^ (hi - lo + 1) := by
  rw [BitVec.extractLsb_toNat, Nat.shiftRight_eq_div_pow]

end Sys2Proof.Machine

namespace Sys2Proof.Proofs

open Sys2Proof.Machine

/-- Settles O7: each field is a digit of the header word's value, since each is smaller than the weight above it. -/
theorem packetHeaderWordCarriesFields : Obligations.PacketHeaderWordCarriesFields := by
  intro p hpayload
  have hword := p.headerWord_toNat (by omega)
  have htype := p.packetType.isLt
  have hprefix := p.serialPrefix.isLt
  have hserial := p.serial.isLt
  have htime := p.time.isLt
  have hstatus : (0b01#2).toNat = 1 := rfl
  have hbits := toNat_extractLsb_eq_div_mod p.headerWord
  refine ⟨BitVec.eq_of_toNat_eq ((hbits 105 104).trans ?_), BitVec.eq_of_toNat_eq ((hbits 103 96).trans ?_),
    BitVec.eq_of_toNat_eq ((hbits 95 88).trans ?_), BitVec.eq_of_toNat_eq ((hbits 87 72).trans ?_),
    (hbits 71 64).trans ?_, BitVec.eq_of_toNat_eq ((hbits 63 0).trans ?_)⟩ <;> omega

/-- Settles O29: both fields are `be16` of two neighbouring bytes. -/
theorem sixteenBitFieldsAreBigEndian : Obligations.SixteenBitFieldsAreBigEndian := by
  intro s i
  exact ⟨be16_toNat _ _, be16_toNat _ _, rfl, rfl⟩

end Sys2Proof.Proofs
end

section
/-! The encoding family, the wire frame (30_encoding.md R70): where a scan finds a frame in the buffer, what it decodes
there, and a frame sent byte by byte. -/

namespace Sys2Proof.Machine

/-! ### The scan in terms of the buffer -/

namespace State

/-- A candidate that the scan confirms is an index where a frame starts, and the least one. -/
theorem frameIn_of_scan_eq_some {s : State} {k : Nat} (h : s.scan = some k) :
    frameIn s.buffer k ∧ ∀ j < k, ¬ frameIn s.buffer j := by
  obtain ⟨hk, hconfirms, hleast⟩ := scan_eq_some h
  refine ⟨(confirms_iff_frameIn s hk).mp hconfirms, fun j hj hframe => ?_⟩
  have hpasses := (confirms_iff_frameIn s (i := j) (by omega)).mpr hframe
  exact absurd (hleast j hj) (by rw [hpasses]; decide)

theorem not_frameIn_of_scan_eq_none {s : State} (h : s.scan = none) (j : Nat) : ¬ frameIn s.buffer j := by
  intro hframe
  have hj : j + 10 < s.len := s.buffer_length ▸ hframe.1
  have hpasses := (confirms_iff_frameIn s hj).mpr hframe
  exact absurd (scan_eq_none h j hj) (by rw [hpasses]; decide)

theorem scan_eq_none_of_not_frameIn {s : State} (h : ∀ j, ¬ frameIn s.buffer j) : s.scan = none := by
  cases hscan : s.scan with
  | none => rfl
  | some k => exact absurd (frameIn_of_scan_eq_some hscan).1 (h k)

theorem scan_eq_some_of_frameIn {s : State} {i : Nat} (hi : frameIn s.buffer i)
    (hleast : ∀ j < i, ¬ frameIn s.buffer j) : s.scan = some i := by
  cases hscan : s.scan with
  | none => exact absurd hi (not_frameIn_of_scan_eq_none hscan i)
  | some k =>
    obtain ⟨hk, hleast'⟩ := frameIn_of_scan_eq_some hscan
    rcases Nat.lt_trichotomy k i with h | rfl | h
    · exact absurd hk (hleast k h)
    · rfl
    · exact absurd hi (hleast' i h)

end State

/-- A BYTE after which no index starts a frame. -/
theorem exec_byte_of_not_frameIn {b : Byte} {t : Timestamp} {s : State} (h : ∀ j, ¬ frameIn (scannedBytes s b t) j) :
    exec (.byte b t) s = .next ((s.accumulate b t).emit .none) := by
  rw [← accumulate_buffer] at h
  rcases execByte_cases b t s with ⟨-, hexec⟩ | ⟨i, hscan, -, -⟩
  · exact hexec
  · cases (State.scan_eq_none_of_not_frameIn h).symm.trans hscan

/-- A BYTE after which `i` is the least index that starts a frame. -/
theorem exec_byte_of_frameIn {b : Byte} {t : Timestamp} {s : State} {i : Nat} (hi : frameIn (scannedBytes s b t) i)
    (hleast : ∀ j < i, ¬ frameIn (scannedBytes s b t) j) :
    exec (.byte b t) s =
      .next (((s.accumulate b t).emit (.packet ((s.accumulate b t).packetAt i t))).clear) := by
  rw [← accumulate_buffer] at hi hleast
  have hsome := State.scan_eq_some_of_frameIn hi hleast
  rcases execByte_cases b t s with ⟨hscan, -⟩ | ⟨k, hscan, -, hexec⟩
  · cases hsome.symm.trans hscan
  · cases hsome.symm.trans hscan
    exact hexec

/-- The event of a BYTE: NONE where no index starts a frame in the buffer it scans, and PACKET where one does. -/
theorem out_of_exec_byte {b : Byte} {t : Timestamp} {s u : State} (h : exec (.byte b t) s = .next u) :
    ((∀ j, ¬ frameIn (scannedBytes s b t) j) ∧ u.out = s.out ++ [.none]) ∨
      ((∃ j, frameIn (scannedBytes s b t) j) ∧ ∃ p, u.out = s.out ++ [.packet p]) := by
  have hbuffer := accumulate_buffer s b t
  rcases execByte_cases b t s with ⟨hscan, hexec⟩ | ⟨i, hscan, -, hexec⟩
  · cases hexec.symm.trans h
    have hquiet := State.not_frameIn_of_scan_eq_none hscan
    rw [hbuffer] at hquiet
    refine .inl ⟨hquiet, ?_⟩
    rw [State.emit_out, State.accumulate_out]
  · cases hexec.symm.trans h
    have hframe := (State.frameIn_of_scan_eq_some hscan).1
    rw [hbuffer] at hframe
    refine .inr ⟨⟨i, hframe⟩, (s.accumulate b t).packetAt i t, ?_⟩
    rw [State.clear_out, State.emit_out, State.accumulate_out]

/-! ### A wire frame in the buffer -/

/-- The packet that stands for a frame's fields; the reserved byte is not exposed (42_header_decoder.md R153). -/
def Frame.packet (f : Frame) (t : Timestamp) : Packet where
  packetType := f.packetType
  serialPrefix := f.serialPrefix
  serial := f.serial
  payload := f.payload
  time := t

@[simp] theorem Frame.covered_length (f : Frame) : f.covered.length = f.payload.length + 5 := by simp [Frame.covered]

/-- Frame offset `N-2` is the high byte of the checksum (30_encoding.md R70). -/
theorem Frame.encode_getD_hiByte (f : Frame) (junk : List Byte) :
    (junk ++ f.encode).getD (junk.length + (f.payload.length + 6)) 0 = hiByte f.checksum := by
  simp [Frame.encode]

/-- Frame offset `N-1` is the low byte of the checksum. -/
theorem Frame.encode_getD_loByte (f : Frame) (junk : List Byte) :
    (junk ++ f.encode).getD (junk.length + (f.payload.length + 7)) 0 = loByte f.checksum := by
  simp [Frame.encode]

/-- A wire frame of 11 bytes or more starts a frame where it stands at the end of a byte sequence. -/
theorem Frame.frameIn_append_encode (f : Frame) (junk : List Byte) (hpayload : 3 ≤ f.payload.length) :
    frameIn (junk ++ f.encode) junk.length := by
  have hlen : (junk ++ f.encode).length = junk.length + (f.payload.length + 8) := by simp
  have hmarker : (junk ++ f.encode).getD junk.length 0 = 0x23 := by simp [Frame.encode]
  have hdrop : (junk ++ f.encode).drop (junk.length + 1) = f.covered ++ [hiByte f.checksum, loByte f.checksum] := by
    rw [← List.drop_drop, List.drop_left]
    rfl
  have hcovered : f.covered.length = junk.length + (f.payload.length + 8) - junk.length - 3 := by
    rw [Frame.covered_length]
    omega
  have hhi : junk.length + (f.payload.length + 8) - 2 = junk.length + (f.payload.length + 6) := by omega
  have hlo : junk.length + (f.payload.length + 8) - 1 = junk.length + (f.payload.length + 7) := by omega
  refine ⟨by omega, hmarker, ?_⟩
  rw [hlen, hdrop, List.take_left' hcovered, ← Frame.checksum_eq_foldl, hhi, hlo, Frame.encode_getD_hiByte,
    Frame.encode_getD_loByte, hiByte_append_loByte]

/-- A byte of the buffer, read from the part it stands in. -/
theorem State.bufAt_of_buffer_eq_append {s : State} {junk rest : List Byte} (h : s.buffer = junk ++ rest)
    {k : Nat} {b : Byte} (hk : rest[k]? = some b) : s.bufAt (junk.length + k) = b := by
  have hlt : junk.length + k < s.len := by
    rw [← s.buffer_length, h, List.length_append]
    have := (List.getElem?_eq_some_iff.mp hk).1
    omega
  have hget := s.buffer_getElem? hlt
  rw [h, List.getElem?_append_right (by omega), Nat.add_sub_cancel_left, hk] at hget
  exact (Option.some.inj hget).symm

/-- What is decoded from a wire frame at the end of the buffer: the fields it was built from. -/
theorem State.packetAt_of_buffer_eq_append_encode {s : State} {f : Frame} {junk : List Byte}
    (h : s.buffer = junk ++ f.encode) (t : Timestamp) : s.packetAt junk.length t = f.packet t := by
  have hlen : s.len = junk.length + (f.payload.length + 8) := by
    rw [← s.buffer_length, h, List.length_append, Frame.encode_length]
  have htype : s.typeAt junk.length = f.packetType := bufAt_of_buffer_eq_append h rfl
  have hprefix : s.prefixAt junk.length = f.serialPrefix := bufAt_of_buffer_eq_append h rfl
  have hserial : s.serialAt junk.length = f.serial := by
    have hhi : s.bufAt (junk.length + 2) = hiByte f.serial := bufAt_of_buffer_eq_append h rfl
    have hlo : s.bufAt (junk.length + 3) = loByte f.serial := bufAt_of_buffer_eq_append h rfl
    rw [State.serialAt, hhi, hlo]
    exact hiByte_append_loByte f.serial
  have hpayload : s.payloadAt junk.length = f.payload := by
    have hdrop : s.buffer.drop (junk.length + 6) = f.payload ++ [hiByte f.checksum, loByte f.checksum] := by
      rw [h, ← List.drop_drop, List.drop_left]
      rfl
    rw [State.payloadAt, bufSlice_eq_take_drop s (by omega), hdrop]
    exact List.take_left' (by omega)
  rw [State.packetAt, htype, hprefix, hserial, hpayload]
  rfl

/-- With room and in time, a BYTE evicts nothing. -/
theorem appendIndex_eq_len {s : State} {t : Timestamp} (hlen : s.len ≤ 255)
    (htime : 0 < s.len → t.toNat ≤ s.tLast.toNat + 50) : appendIndex s t = s.len := by
  unfold appendIndex
  rw [if_neg]
  omega

theorem scannedBytes_eq_append {s : State} {b : Byte} {t : Timestamp} (hlen : s.len ≤ 255)
    (htime : 0 < s.len → t.toNat ≤ s.tLast.toNat + 50) : scannedBytes s b t = s.buffer ++ [b] := by
  rw [scannedBytes, appendIndex_eq_len hlen htime, ← s.buffer_length, List.take_length]

/-- The BYTE that completes a wire frame confirms it where it starts and decodes its fields. -/
theorem exec_byte_of_scannedBytes_eq_encode {f : Frame} {junk : List Byte} {b : Byte} {t : Timestamp} {s : State}
    (hpayload : 3 ≤ f.payload.length) (hscanned : scannedBytes s b t = junk ++ f.encode)
    (hjunk : ∀ j < junk.length, ¬ frameIn (junk ++ f.encode) j) :
    exec (.byte b t) s = .next (((s.accumulate b t).emit (.packet (f.packet t))).clear) := by
  have hframe : frameIn (scannedBytes s b t) junk.length := hscanned ▸ f.frameIn_append_encode junk hpayload
  have hpacket : (s.accumulate b t).packetAt junk.length t = f.packet t :=
    State.packetAt_of_buffer_eq_append_encode ((accumulate_buffer s b t).trans hscanned) t
  rw [exec_byte_of_frameIn hframe (by rwa [hscanned]), hpacket]

/-! ### A byte sequence sent in time -/

/-- The requests that send the bytes `bs` at the times `ts`. -/
def byteRequests (bs : List Byte) (ts : List Timestamp) : List Request :=
  List.zipWith (fun b t => encode (.byte b t)) bs ts

/-- `u` is what `s`, with an empty buffer and the requests of `bs` at `ts`, has become once the first `n` bytes are
received and none of them confirmed a frame. -/
structure Received (bs : List Byte) (ts : List Timestamp) (s : State) (n : Nat) (u : State) : Prop where
  buffer : u.buffer = bs.take n
  time : 0 < n → u.tLast = ts.getD (n - 1) 0
  pending : u.pending = (byteRequests bs ts).drop n
  out : u.out = s.out ++ List.replicate n .none

/-- Times in range, at most 50 ms apart (70_reset_and_hazards.md R235). -/
structure InTime (ts : List Timestamp) : Prop where
  range : ∀ t ∈ ts, t.toNat < 2 ^ 63
  gap : ∀ k, k + 1 < ts.length → (ts.getD (k + 1) 0).toNat ≤ (ts.getD k 0).toNat + 50

namespace Received

variable {bs : List Byte} {ts : List Timestamp} {s u : State} {n : Nat}

theorem start (hlen : s.len = 0) (hpending : s.pending = byteRequests bs ts) : Received bs ts s 0 s where
  buffer := List.eq_nil_of_length_eq_zero (s.buffer_length.trans hlen)
  time := fun h => absurd h (Nat.lt_irrefl 0)
  pending := hpending
  out := (List.append_nil _).symm

theorem len (h : Received bs ts s n u) (hn : n ≤ bs.length) : u.len = n := by
  rw [← u.buffer_length, h.buffer, List.length_take_of_le hn]

variable (hlen : ts.length = bs.length) (htime : InTime ts)
include hlen htime

/-- The next byte is taken as a BYTE at its time. -/
theorem step_eq (h : Received bs ts s n u) (hn : n < bs.length) :
    step u = exec (.byte bs[n] (ts.getD n 0)) (u.withPending ((byteRequests bs ts).drop (n + 1))) := by
  have hn' : n < ts.length := hlen ▸ hn
  have hreq : n < (byteRequests bs ts).length := by
    rw [byteRequests, List.length_zipWith]
    omega
  have hget : ts.getD n 0 = ts[n] := by simp [List.getD, hn']
  have hpending : u.pending = encode (.byte bs[n] ts[n]) :: (byteRequests bs ts).drop (n + 1) := by
    rw [h.pending, List.drop_eq_getElem_cons hreq]
    simp [byteRequests]
  rw [hget]
  exact step_ok hpending (decode_inWord_byte bs[n] (htime.range _ (List.getElem_mem hn')))

/-- No byte is lost: the next BYTE scans the bytes received so far and its own. -/
theorem scannedBytes_eq (h : Received bs ts s n u) (hn : n < bs.length) (hroom : bs.length ≤ 256) (q : List Request) :
    scannedBytes (u.withPending q) bs[n] (ts.getD n 0) = bs.take (n + 1) := by
  have hulen : (u.withPending q).len = n := h.len hn.le
  have hgap : 0 < (u.withPending q).len → (ts.getD n 0).toNat ≤ (u.withPending q).tLast.toNat + 50 := by
    intro hpos
    obtain ⟨k, rfl⟩ : ∃ k, n = k + 1 := ⟨n - 1, by omega⟩
    rw [State.withPending_tLast, h.time (by omega), Nat.add_sub_cancel]
    exact htime.gap k (by omega)
  rw [scannedBytes_eq_append (by omega) hgap, State.withPending_buffer, h.buffer, List.take_succ_eq_append_getElem hn]

theorem step_next (h : Received bs ts s n u) (hn : n < bs.length) (hroom : bs.length ≤ 256)
    (hquiet : ∀ j, ¬ frameIn (bs.take (n + 1)) j) : ∃ v, step u = .next v ∧ Received bs ts s (n + 1) v := by
  have hscanned := h.scannedBytes_eq hlen htime hn hroom ((byteRequests bs ts).drop (n + 1))
  have hexec := exec_byte_of_not_frameIn (hscanned ▸ hquiet)
  refine ⟨_, (h.step_eq hlen htime hn).trans hexec, ?_, fun _ => rfl, ?_, ?_⟩
  · rw [State.emit_buffer, accumulate_buffer, hscanned]
  · rw [State.emit_pending, State.accumulate_pending, State.withPending_pending]
  · rw [State.emit_out, State.accumulate_out, State.withPending_out, h.out, List.append_assoc,
      List.replicate_succ']

/-- The run over the first `n` bytes, where none of their prefixes confirms a frame. -/
theorem run_next (hroom : bs.length ≤ 256) (hempty : s.len = 0) (hpending : s.pending = byteRequests bs ts)
    (hn : n ≤ bs.length) (hquiet : ∀ k ≤ n, ∀ j, ¬ frameIn (bs.take k) j) :
    ∃ u, run n s = .next u ∧ Received bs ts s n u := by
  induction n with
  | zero => exact ⟨s, rfl, start hempty hpending⟩
  | succ n ih =>
    obtain ⟨u, hrun, hu⟩ := ih (by omega) (fun k hk => hquiet k (by omega))
    obtain ⟨v, hstep, hv⟩ := hu.step_next hlen htime hn hroom (hquiet (n + 1) le_rfl)
    exact ⟨v, (run_succ_of_run_next hrun).trans hstep, hv⟩

end Received

end Sys2Proof.Machine

namespace Sys2Proof.Proofs

open Sys2Proof.Machine

/-- Settles O27: nothing is evicted, so the BYTE scans the bytes ahead and the whole frame. -/
theorem lastByteOfWireFrameIsDecoded : Obligations.LastByteOfWireFrameIsDecoded := by
  intro f junk b t s hpayload hroom hbuffer htime hjunk
  have hlen : s.len + 1 = junk.length + (f.payload.length + 8) := by
    simpa using congrArg List.length hbuffer
  have hscanned : scannedBytes s b t = junk ++ f.encode :=
    (scannedBytes_eq_append (by omega) (fun _ => htime)).trans hbuffer
  refine ⟨_, exec_byte_of_scannedBytes_eq_encode hpayload hscanned hjunk, rfl, ?_⟩
  rw [State.clear_out, State.emit_out, State.accumulate_out]
  rfl

/-- Settles O28: the run over all bytes but the last confirms nothing, and the last BYTE completes the frame. -/
theorem wireFrameSentInTimeIsDecoded : Obligations.WireFrameSentInTimeIsDecoded := by
  intro f ts s hpayload hmax hlen hrange hgap hquiet hempty hpending
  have hN : f.encode.length = f.payload.length + 7 + 1 := f.encode_length
  have htime : InTime ts := ⟨hrange, hgap⟩
  have hroom : f.encode.length ≤ 256 := by omega
  have hlast : f.payload.length + 7 < f.encode.length := by omega
  obtain ⟨u, hrun, hu⟩ := Received.run_next hlen htime hroom hempty hpending hlast.le
    (fun k hk => hquiet k (by omega))
  have hscanned := hu.scannedBytes_eq hlen htime hlast hroom
    ((byteRequests f.encode ts).drop (f.payload.length + 7 + 1))
  rw [← hN, List.take_length] at hscanned
  have hstep := (hu.step_eq hlen htime hlast).trans
    (exec_byte_of_scannedBytes_eq_encode (junk := []) hpayload hscanned (fun j hj => absurd hj (Nat.not_lt_zero j)))
  rw [hN, Nat.add_sub_cancel]
  refine ⟨_, (run_succ_of_run_next hrun).trans hstep, rfl, ?_, ?_⟩
  · rw [State.clear_pending, State.emit_pending, State.accumulate_pending, State.withPending_pending]
    apply List.drop_eq_nil_of_le
    rw [byteRequests, List.length_zipWith]
    omega
  · rw [State.clear_out, State.emit_out, State.accumulate_out, State.withPending_out, hu.out]
    rfl

/-- Settles O36: by the transaction; the event of a BYTE follows its scan, which finds a frame exactly where one
starts. -/
theorem oneEventPerScannerTransaction : Obligations.OneEventPerScannerTransaction := by
  refine ⟨fun i s u hexec => ?_, OutEvent.status_ne_reserved⟩
  cases i with
  | reset =>
    cases hexec
    exact ⟨fun _ _ hbyte => (by cases hbyte), fun heos => (by cases heos), fun _ _ => rfl⟩
  | byte b t =>
    refine ⟨fun _ _ hbyte => ?_, fun heos => (by cases heos), fun hother => absurd rfl (hother b t)⟩
    cases hbyte
    rcases out_of_exec_byte hexec with ⟨hquiet, hout⟩ | ⟨hframe, p, hout⟩
    · exact ⟨.none, hout, fun ⟨j, hframe⟩ => absurd hframe (hquiet j), fun _ => rfl⟩
    · exact ⟨.packet p, hout, fun _ => rfl, fun hquiet => absurd hframe (not_exists.mpr hquiet)⟩
  | eos =>
    cases hexec
    exact ⟨fun _ _ hbyte => (by cases hbyte), fun _ => ⟨.readFail, rfl, rfl⟩, fun _ hne => absurd rfl hne⟩
  | crc16 start count seq =>
    have hout : u.out = s.out := by
      rcases execCrc16_cases start count seq s with ⟨-, hfault⟩ | ⟨-, hnext⟩
      · cases hfault.symm.trans hexec
      · cases hnext.symm.trans hexec
        rfl
    exact ⟨fun _ _ hbyte => (by cases hbyte), fun heos => (by cases heos), fun _ _ => hout⟩

end Sys2Proof.Proofs
end

section
/-! The checksum engine family (40_checksum_engine.md), the register: a round and a byte update are linear over XOR, and
injective in the register and in the byte (R101, R102). -/

namespace Sys2Proof.Machine

/-! ### One round -/

/-- A round as one shift and one XOR (40_checksum_engine.md R101). -/
theorem crcRound_eq_shift_xor (r : Word16) : crcRound r = r >>> 1 ^^^ (if r.getLsbD 0 then 0xA001#16 else 0#16) := by
  unfold crcRound
  split <;> simp

theorem crcRound_xor (r r' : Word16) : crcRound (r ^^^ r') = crcRound r ^^^ crcRound r' := by
  have hpoly : (if (r ^^^ r').getLsbD 0 then 0xA001#16 else 0#16) =
      (if r.getLsbD 0 then 0xA001#16 else 0#16) ^^^ (if r'.getLsbD 0 then 0xA001#16 else 0#16) := by
    rw [BitVec.getLsbD_xor]
    cases r.getLsbD 0 <;> cases r'.getLsbD 0 <;> rfl
  rw [crcRound_eq_shift_xor, crcRound_eq_shift_xor r, crcRound_eq_shift_xor r', BitVec.ushiftRight_xor_distrib, hpoly]
  ac_rfl

/-- Bit 15 of the polynomial is 1, and the shift brings in a 0: the top bit keeps the bit shifted out. -/
theorem crcRound_getLsbD_15 (r : Word16) : (crcRound r).getLsbD 15 = r.getLsbD 0 := by
  have htop : (r >>> 1).getLsbD 15 = false :=
    (BitVec.getLsbD_ushiftRight r 1 15).trans (BitVec.getLsbD_of_ge r 16 le_rfl)
  rw [crcRound_eq_shift_xor, BitVec.getLsbD_xor, htop]
  cases r.getLsbD 0 <;> rfl

/-- Bit 0 of the register can be read off the round's value, and with it the shifted register. -/
theorem crcRound_injective : Function.Injective crcRound := by
  intro r r' h
  have hlow : r.getLsbD 0 = r'.getLsbD 0 := by
    rw [← crcRound_getLsbD_15, ← crcRound_getLsbD_15, h]
  have hshift : r >>> 1 = r' >>> 1 := by
    rw [crcRound_eq_shift_xor, crcRound_eq_shift_xor, hlow] at h
    exact (BitVec.xor_left_inj _).mp h
  apply BitVec.eq_of_getLsbD_eq
  intro i _
  cases i with
  | zero => exact hlow
  | succ i =>
    rw [Nat.add_comm, ← BitVec.getLsbD_ushiftRight, ← BitVec.getLsbD_ushiftRight, hshift]

/-! ### The rounds of a byte update -/

theorem crcRounds_xor (n : Nat) (r r' : Word16) : crcRounds n (r ^^^ r') = crcRounds n r ^^^ crcRounds n r' := by
  induction n generalizing r r' with
  | zero => rfl
  | succ n ih => rw [crcRounds_succ, crcRounds_succ, crcRounds_succ, crcRound_xor, ih]

theorem crcRounds_injective (n : Nat) : Function.Injective (crcRounds n) := by
  have hiterate : crcRounds n = crcRound^[n] := funext (crcRounds_eq_iterate n)
  rw [hiterate]
  exact crcRound_injective.iterate n

theorem crcByte_left_injective (b : Byte) : Function.Injective fun r => crcByte r b := by
  intro r r' h
  exact (BitVec.xor_left_inj _).mp (crcRounds_injective 8 h)

theorem crcByte_right_injective (r : Word16) : Function.Injective (crcByte r) := by
  intro b b' h
  have hwide : b.setWidth 16 = b'.setWidth 16 := (BitVec.xor_right_inj r).mp (crcRounds_injective 8 h)
  have hnarrow := congrArg (BitVec.setWidth 8) hwide
  rwa [BitVec.setWidth_setWidth_of_le b (by decide), BitVec.setWidth_setWidth_of_le b' (by decide),
    BitVec.setWidth_eq, BitVec.setWidth_eq] at hnarrow

theorem foldl_crcByte_injective (bs : List Byte) : Function.Injective fun r => bs.foldl crcByte r := by
  induction bs with
  | nil => exact Function.injective_id
  | cons b bs ih => exact ih.comp (crcByte_left_injective b)

/-! ### The register that the rounds start from -/

theorem extractLsb_xor_setWidth_high (r : Word16) (b : Byte) :
    (r ^^^ b.setWidth 16).extractLsb 15 8 = r.extractLsb 15 8 := by
  have hzero : (b.setWidth 16).extractLsb 15 8 = 0#8 := by
    apply BitVec.eq_of_toNat_eq
    rw [toNat_extractLsb_eq_div_mod, BitVec.toNat_setWidth, BitVec.toNat_ofNat]
    have := b.isLt
    omega
  rw [BitVec.extractLsb_xor, hzero, BitVec.xor_zero]

theorem extractLsb_xor_setWidth_low (r : Word16) (b : Byte) :
    (r ^^^ b.setWidth 16).extractLsb 7 0 = r.extractLsb 7 0 ^^^ b := by
  have hbyte : (b.setWidth 16).extractLsb 7 0 = b := by
    apply BitVec.eq_of_toNat_eq
    rw [toNat_extractLsb_eq_div_mod, BitVec.toNat_setWidth]
    have := b.isLt
    omega
  rw [BitVec.extractLsb_xor, hbyte]

end Sys2Proof.Machine

namespace Sys2Proof.Proofs

open Sys2Proof.Machine

/-- Settles O8: bit 0 is the remainder by 2, and the logical shift is the quotient. -/
theorem crcRoundShiftsAndXorsPolynomial : Obligations.CrcRoundShiftsAndXorsPolynomial := by
  intro r
  have hbit : r.getLsbD 0 = decide (r.toNat % 2 = 1) := Nat.testBit_zero r.toNat
  have hshift : (r >>> 1).toNat = r.toNat / 2 := Nat.shiftRight_eq_div_pow r.toNat 1
  rw [crcRound_eq_shift_xor, BitVec.toNat_xor, hshift, hbit]
  by_cases hodd : r.toNat % 2 = 1
  · simp [hodd]
  · simp [hodd]

/-- Settles O9: the rounds start from the register with the byte, widened to 16 bits, XORed in. -/
theorem crcByteXorsLowByteThenEightRounds : Obligations.CrcByteXorsLowByteThenEightRounds := by
  intro r b
  exact ⟨r ^^^ b.setWidth 16, extractLsb_xor_setWidth_high r b, extractLsb_xor_setWidth_low r b,
    crcRounds_eq_iterate 8 _⟩

/-- Settles O10: XORing the byte in and each of the 8 rounds are linear. -/
theorem crcByteIsLinearOverXor : Obligations.CrcByteIsLinearOverXor := by
  intro r r' b b'
  have hregroup : (r ^^^ r') ^^^ (b ^^^ b').setWidth 16 = (r ^^^ b.setWidth 16) ^^^ (r' ^^^ b'.setWidth 16) := by
    rw [BitVec.setWidth_xor]
    ac_rfl
  rw [crcByte, crcByte, crcByte, hregroup, crcRounds_xor]

end Sys2Proof.Proofs
end

section
/-! The checksum engine family, the requests: the value of a checksum as a fold over its range, what the transaction
CRC16 answers, and that its one effect, the response, is seen by no other transaction (40_checksum_engine.md R103 to
R107). -/

namespace Sys2Proof.Machine

/-! ### The value of a checksum -/

theorem crc16_eq_foldl {seq : List Byte} {start count : Nat} (h : start + count ≤ seq.length) :
    crc16 seq start count = some (((seq.drop start).take count).foldl crcByte 0xFFFF) := by
  rw [crc16_of_le h, crcLoop_eq_foldl _ _ _ _ h]
  rfl

theorem crc16_middle (pre mid post : List Byte) :
    crc16 (pre ++ mid ++ post) pre.length mid.length = some (mid.foldl crcByte 0xFFFF) := by
  rw [crc16_eq_foldl (by simp), List.append_assoc, List.drop_left, List.take_left]

theorem crc16_whole (seq : List Byte) : crc16 seq 0 seq.length = some (seq.foldl crcByte 0xFFFF) := by
  simpa using crc16_middle [] seq []

/-! ### The transaction CRC16 -/

theorem exec_crc16_of_le {start count : Word16} {seq : List Byte} (h : start.toNat + count.toNat ≤ seq.length)
    (s : State) :
    exec (.crc16 start count seq) s =
      .next (s.respond (((seq.drop start.toNat).take count.toNat).foldl crcByte 0xFFFF)) := by
  rw [exec, execCrc16, crc16_eq_foldl h]

theorem exec_crc16_of_lt {start count : Word16} {seq : List Byte} (h : seq.length < start.toNat + count.toNat)
    (s : State) : exec (.crc16 start count seq) s = .fault .contractViolation := by
  rw [exec, execCrc16, crc16_eq_none_iff.mpr h]

/-- A request that answers a next state answers one response, the same from every state. -/
theorem exists_respond_of_exec_crc16 {start count : Word16} {seq : List Byte} {s t : State}
    (h : exec (.crc16 start count seq) s = .next t) :
    ∃ v, t = s.respond v ∧ ∀ u, exec (.crc16 start count seq) u = .next (u.respond v) := by
  rcases Nat.lt_or_ge seq.length (start.toNat + count.toNat) with hout | hin
  · cases (exec_crc16_of_lt hout s).symm.trans h
  · cases (exec_crc16_of_le hin s).symm.trans h
    exact ⟨_, rfl, exec_crc16_of_le hin⟩

/-! ### A response is seen by no other transaction -/

namespace State

variable (s : State) (v : Word16)

theorem accumulate_respond (b : Byte) (t : Timestamp) :
    (s.respond v).accumulate b t = (s.accumulate b t).respond v := by
  rw [accumulate_eq, accumulate_eq]
  rfl

theorem confirms_respond (i : Nat) : (s.respond v).confirms i = s.confirms i := rfl

theorem scanFrom_respond (n i : Nat) : (s.respond v).scanFrom n i = s.scanFrom n i := by
  induction n generalizing i with
  | zero => rfl
  | succ n ih => rw [scanFrom_succ, scanFrom_succ, respond_len, confirms_respond, ih]

theorem scan_respond : (s.respond v).scan = s.scan := s.scanFrom_respond v s.len 0

end State

theorem scanAndEmit_respond (t : Timestamp) (s : State) (v : Word16) :
    scanAndEmit t (s.respond v) = (scanAndEmit t s).respond v := by
  unfold scanAndEmit
  rw [State.scan_respond]
  cases s.scan with
  | none => rfl
  | some i => rfl

/-- Every transaction but CRC16 answers, and a response given before it stands as if given after it. -/
theorem exec_respond {i : Instr} (hi : ∀ c n q, i ≠ .crc16 c n q) (s : State) :
    ∃ u, exec i s = .next u ∧ ∀ v, exec i (s.respond v) = .next (u.respond v) := by
  cases i with
  | reset => exact ⟨_, rfl, fun _ => rfl⟩
  | byte b t =>
    refine ⟨_, rfl, fun v => ?_⟩
    rw [exec, execByte, State.accumulate_respond, scanAndEmit_respond]
  | eos => exact ⟨_, rfl, fun _ => rfl⟩
  | crc16 start count seq => exact absurd rfl (hi start count seq)

end Sys2Proof.Machine

namespace Sys2Proof.Proofs

open Sys2Proof.Machine

/-- Settles O11: both clauses are the rules of a request within its contract and outside it. -/
theorem crc16RespondsWithinContract : Obligations.Crc16RespondsWithinContract := by
  intro start count seq s
  exact ⟨fun hin => exec_crc16_of_le hin s, fun hout => exec_crc16_of_lt hout s⟩

/-- Settles O12: the value is the fold over the range, in which the surroundings do not occur. -/
theorem checksumDependsOnRangeOnly : Obligations.ChecksumDependsOnRangeOnly := by
  intro pre pre' mid post post'
  rw [crc16_middle, crc16_middle]

/-- Settles O13: the two registers differ after the changed byte, and the byte updates that follow keep them apart. -/
theorem checksumDetectsOneChangedByte : Obligations.ChecksumDetectsOneChangedByte := by
  intro a c x y hxy heq
  have hvalue : ∀ z, crc16 (a ++ z :: c) 0 (a.length + 1 + c.length) =
      some (c.foldl crcByte (crcByte (a.foldl crcByte 0xFFFF) z)) := by
    intro z
    have hlen : a.length + 1 + c.length = (a ++ z :: c).length := by
      rw [List.length_append, List.length_cons]
      omega
    rw [hlen, crc16_whole, List.foldl_append, List.foldl_cons]
  rw [hvalue, hvalue] at heq
  exact hxy (crcByte_right_injective _ (foldl_crcByte_injective c (Option.some.inj heq)))

/-- Settles O14: `START + COUNT` is `LEN - 2`, inside the buffer of `LEN` bytes. -/
theorem scannerChecksumWithinContract : Obligations.ScannerChecksumWithinContract := by
  intro s i hi
  have hlen := s.buffer_length
  exact ⟨by omega, by omega, by omega, _, localCrc_eq s hi⟩

/-- Settles O15: the request appends one response, the same in either order, and the other transaction passes it by. -/
theorem crc16CommutesWithOtherTransactions : Obligations.Crc16CommutesWithOtherTransactions := by
  intro i start count seq s t hi hexec
  obtain ⟨v, rfl, hrequest⟩ := exists_respond_of_exec_crc16 hexec
  obtain ⟨u, hother, hresponded⟩ := exec_respond hi s
  exact ⟨u, u.respond v, hother, hresponded v, hrequest u⟩

end Sys2Proof.Proofs
end

section
/-! The frame scanner family (41_frame_scanner.md): the two evictions, the append, the scan, and the completion of BYTE
and EOS. -/

namespace Sys2Proof.Machine

namespace State

/-! ### The evictions -/

theorem evictStale_of_stale {s : State} {t : Timestamp} (h : s.stale t = true) : s.evictStale t = s.clear := if_pos h

theorem evictStale_of_not_stale {s : State} {t : Timestamp} (h : ¬ s.stale t = true) : s.evictStale t = s := if_neg h

/-! ### The scan -/

/-- The scan confirms the least index that starts a frame in the buffer (41_frame_scanner.md R128). -/
theorem scan_eq_some_iff (s : State) (i : Nat) :
    s.scan = some i ↔ frameIn s.buffer i ∧ ∀ j < i, ¬ frameIn s.buffer j :=
  ⟨frameIn_of_scan_eq_some, fun ⟨hi, hleast⟩ => scan_eq_some_of_frameIn hi hleast⟩

theorem scan_eq_none_iff (s : State) : s.scan = none ↔ ∀ j, ¬ frameIn s.buffer j :=
  ⟨not_frameIn_of_scan_eq_none, scan_eq_none_of_not_frameIn⟩

/-- The payload runs from frame offset 6 up to the two checksum bytes (42_header_decoder.md R155). -/
theorem packetAt_payload_length (s : State) (i : Nat) (t : Timestamp) :
    (s.packetAt i t).payload.length = s.len - 2 - (i + 6) := s.bufSlice_length (i + 6) (s.len - 2)

end State

/-! ### The transaction BYTE -/

theorem scannedBytes_length (s : State) (b : Byte) (t : Timestamp) :
    (scannedBytes s b t).length = appendIndex s t + 1 := by
  rw [← accumulate_buffer, State.buffer_length, State.accumulate_len, evicted_len_eq_appendIndex]

/-- A frame has at least 11 bytes (90_conflicts.md C2). -/
theorem not_frameIn_of_length_le {bytes : List Byte} (h : bytes.length ≤ 10) (j : Nat) : ¬ frameIn bytes j := by
  rintro ⟨hroom, -, -⟩
  omega

/-- After its append a BYTE adds one event and writes `LEN` at most. -/
theorem exists_emit_of_exec_byte {b : Byte} {t : Timestamp} {s u : State} (h : exec (.byte b t) s = .next u) :
    ∃ e n, u = { (s.accumulate b t).emit e with len := n } := by
  rcases execByte_cases b t s with ⟨-, hexec⟩ | ⟨i, -, -, hexec⟩
  · cases hexec.symm.trans h
    exact ⟨.none, (s.accumulate b t).len, rfl⟩
  · cases hexec.symm.trans h
    exact ⟨.packet ((s.accumulate b t).packetAt i t), 0, rfl⟩

end Sys2Proof.Machine

namespace Sys2Proof.Proofs

open Sys2Proof.Machine

/-- Settles O18: the evictions leave at most 255 bytes, and the append is one write at that index. -/
theorem appendFollowsEvictions : Obligations.AppendFollowsEvictions := by
  intro s b t
  have hle := s.evicted_len_le t
  refine ⟨_, rfl, hle, s.accumulate_tLast b t, s.accumulate_bufAt_same b t, s.accumulate_len b t, ?_, ?_,
    fun a ha => s.accumulate_bufAt_other b t ha⟩
  · rw [State.accumulate_len]
    omega
  · rw [State.accumulate_len]
    omega

/-- Settles O21: the scan's two answers, each read both ways. -/
theorem scanConfirmsLeastMatchingMarker : Obligations.ScanConfirmsLeastMatchingMarker :=
  fun s => ⟨s.scan_eq_some_iff, s.scan_eq_none_iff⟩

/-- Settles O22: the BYTE confirms nothing, so its event stands on the state its append left. -/
theorem byteWithoutMatchKeepsBuffer : Obligations.ByteWithoutMatchKeepsBuffer := by
  intro b t s hquiet
  rw [exec_byte_of_not_frameIn hquiet, accumulate_eq]
  rfl

/-- Settles O24: by the two ends of a BYTE. The append leaves 1 to 256 bytes, and a confirmed start has at least 10 of
them behind it. -/
theorem byteAlwaysCompletesInOneOfTwoWays : Obligations.ByteAlwaysCompletesInOneOfTwoWays := by
  intro b t s
  have hlen := s.accumulate_len b t
  have hle := s.evicted_len_le t
  rcases execByte_cases b t s with ⟨-, hexec⟩ | ⟨i, -, hi, hexec⟩
  · refine ⟨_, hexec, .inl ⟨?_, ?_, ?_⟩⟩
    · rw [State.emit_out, State.accumulate_out]
    · rw [State.emit_len]
      omega
    · rw [State.emit_len]
      omega
  · have hpayload := (s.accumulate b t).packetAt_payload_length i t
    refine ⟨_, hexec, .inr ⟨(s.accumulate b t).packetAt i t, ?_, rfl, rfl, by omega, by omega⟩⟩
    rw [State.clear_out, State.emit_out, State.accumulate_out]

/-- Settles O25: what follows the append writes the event and `LEN` alone, so the rest is as the append left it. -/
theorem byteWritesOneBufferByte : Obligations.ByteWritesOneBufferByte := by
  intro b t s u hexec
  obtain ⟨e, n, rfl⟩ := exists_emit_of_exec_byte hexec
  exact ⟨Nat.lt_succ_of_le (s.evicted_len_le t), s.accumulate_bufAt_same b t,
    fun a ha => s.accumulate_bufAt_other b t ha, s.accumulate_tLast b t, s.accumulate_crcOut b t,
    s.accumulate_pending b t, s.accumulate_draws b t, e, congrArg (· ++ [e]) (s.accumulate_out b t)⟩

/-- Settles O16: the gap as an exact difference is the stale condition with the difference written as a sum. -/
theorem stalenessCheckClearsOnlyLen : Obligations.StalenessCheckClearsOnlyLen := by
  intro s t
  constructor
  · intro hpos hgap
    exact State.evictStale_of_stale ((s.stale_iff t).mpr ⟨hpos, by omega⟩)
  · intro hkeep
    refine State.evictStale_of_not_stale fun hstale => ?_
    obtain ⟨hpos, hgap⟩ := (s.stale_iff t).mp hstale
    omega

/-- Settles O17: by the two answers of the check, whose bounds on `LEN` exclude each other. -/
theorem overflowCheckClearsOnlyLen : Obligations.OverflowCheckClearsOnlyLen := by
  intro s
  rcases s.evictOverflow_eq with ⟨hfull, hclear⟩ | ⟨hroom, hkeep⟩
  · exact ⟨fun _ => hclear, fun hroom => absurd hfull (Nat.not_lt.mpr hroom)⟩
  · exact ⟨fun hfull => absurd hroom (Nat.not_le.mpr hfull), fun _ => hkeep⟩

/-- Settles O26: the scanned buffer is too short for a frame. -/
theorem tenBytesOrFewerNeverConfirm : Obligations.TenBytesOrFewerNeverConfirm := by
  intro b t s hshort
  have hquiet := not_frameIn_of_length_le (bytes := scannedBytes s b t) (by rw [scannedBytes_length]; exact hshort)
  refine ⟨_, exec_byte_of_not_frameIn hquiet, ?_, ?_⟩
  · rw [State.emit_out, State.accumulate_out]
  · rw [State.emit_len, State.accumulate_len, evicted_len_eq_appendIndex]

/-- Settles O30: EOS is the emit of its event. -/
theorem eosReportsReadFailAndKeepsState : Obligations.EosReportsReadFailAndKeepsState := fun _ => rfl

end Sys2Proof.Proofs
end

section
/-! The header decoder family (42_header_decoder.md): the decoded packet read off the buffer, and the BYTE that confirms
a frame. -/

namespace Sys2Proof.Machine

/-- The packet of a candidate, field by field from the buffer `BUF[0..LEN)` (42_header_decoder.md R151 to R156): all its
fields lie inside it. -/
theorem State.packetAt_eq_of_candidate {s : State} {i : Nat} (hi : i + 10 < s.len) (t : Timestamp) :
    s.packetAt i t =
      { packetType := s.buffer.getD (i + 5) 0
        serialPrefix := s.buffer.getD (i + 1) 0
        serial := s.buffer.getD (i + 2) 0 ++ s.buffer.getD (i + 3) 0
        payload := (s.buffer.drop (i + 6)).take (s.buffer.length - i - 8)
        time := t } := by
  have hbyte (k : Nat) (hk : k < 11) : s.bufAt (i + k) = s.buffer.getD (i + k) 0 := (s.buffer_getD (by omega)).symm
  have hserial : s.serialAt i = s.buffer.getD (i + 2) 0 ++ s.buffer.getD (i + 3) 0 :=
    congrArg₂ be16 (hbyte 2 (by decide)) (hbyte 3 (by decide))
  have hpayload : s.payloadAt i = (s.buffer.drop (i + 6)).take (s.buffer.length - i - 8) := by
    have hcount : s.len - 2 - (i + 6) = s.len - i - 8 := by omega
    rw [payloadAt, bufSlice_eq_take_drop s (Nat.sub_le _ _), buffer_length, hcount]
  rw [packetAt, typeAt, prefixAt, hbyte 5 (by decide), hbyte 1 (by decide), hserial, hpayload]

end Sys2Proof.Machine

namespace Sys2Proof.Proofs

open Sys2Proof.Machine

/-- Settles O23: the BYTE emits the packet at the least start in the buffer it scans and clears, so the packet's fields
are bytes of that buffer and all else is as the append left it. -/
theorem byteWithMatchEmitsPacketAndClears : Obligations.ByteWithMatchEmitsPacketAndClears := by
  intro b t s i hframe hleast
  have hcandidate : i + 10 < (s.accumulate b t).len := by
    rw [← State.buffer_length, accumulate_buffer]
    exact hframe.1
  rw [exec_byte_of_frameIn hframe hleast, State.packetAt_eq_of_candidate hcandidate, accumulate_buffer, accumulate_eq]
  rfl

end Sys2Proof.Proofs
end

section
/-! The exceptions family (60_exceptions.md): the two stops and their causes, the BYTE that clears, and the idle block. -/

namespace Sys2Proof

/-- The only request that encodes a CRC16 is the one at the checksum port with its word and sequence (30_encoding.md
R80). -/
theorem eq_crc_of_decode_crc16 {r : Request} {start count : Word16} {seq : List Byte}
    (h : decode r = .ok (.crc16 start count seq)) : r = .crc (crcWord start count) seq := by
  rcases decode_ok_cases h with ⟨-, hi⟩ | ⟨_, _, -, hi⟩ | ⟨_, _, -, hi⟩ | ⟨_, _, _, hr, hi⟩
  · cases hi
  · cases hi
  · cases hi
  · cases hi
    exact hr

namespace Machine

/-! ### The stops -/

theorem exec_ne_refused (i : Instr) (s : State) (r : Refusal) : exec i s ≠ .refused r := by
  intro h
  rcases exec_cases i s with ⟨_, hnext⟩ | ⟨_, _, _, -, -, hfault⟩
  · cases hnext.symm.trans h
  · cases hfault.symm.trans h

/-- A transaction that faults is a CRC16 outside its contract (60_exceptions.md R205). -/
theorem exec_fault_cases {i : Instr} {s : State} {f : Fault} (h : exec i s = .fault f) :
    f = .contractViolation ∧
      ∃ start count seq, i = .crc16 start count seq ∧ seq.length < start.toNat + count.toNat := by
  rcases exec_cases i s with ⟨_, hnext⟩ | ⟨start, count, seq, hi, hout, hfault⟩
  · cases hnext.symm.trans h
  · cases hfault.symm.trans h
    exact ⟨rfl, start, count, seq, hi, hout⟩

/-- A step that faults ran the transaction of its next request. -/
theorem exec_fault_of_step_fault {s : State} {f : Fault} (h : step s = .fault f) :
    ∃ r rest i, s.pending = r :: rest ∧ decode r = .ok i ∧ exec i (s.withPending rest) = .fault f := by
  rcases step_cases s with ⟨-, hstep⟩ | ⟨r, rest, i, hpending, hdecode, hstep⟩ | ⟨_, _, _, -, -, hstep⟩
  · cases hstep.symm.trans h
  · exact ⟨r, rest, i, hpending, hdecode, hstep.symm.trans h⟩
  · cases hstep.symm.trans h

/-- A step that refuses has a next request that encodes no transaction (30_encoding.md R63, R64). -/
theorem decode_error_of_step_refused {s : State} {r : Refusal} (h : step s = .refused r) :
    ∃ q rest why, s.pending = q :: rest ∧ decode q = .error why ∧ r = .badRequest why := by
  rcases step_cases s with ⟨-, hstep⟩ | ⟨_, rest, i, -, -, hstep⟩ | ⟨q, rest, why, hpending, hdecode, hstep⟩
  · cases hstep.symm.trans h
  · exact absurd (hstep.symm.trans h) (exec_ne_refused i (s.withPending rest) r)
  · cases hstep.symm.trans h
    exact ⟨q, rest, why, hpending, hdecode, rfl⟩

/-! ### The BYTE that clears -/

theorem appendIndex_eq_zero {s : State} {t : Timestamp}
    (h : (0 < s.len ∧ s.tLast.toNat + 50 < t.toNat) ∨ 255 < s.len) : appendIndex s t = 0 := if_pos h

end Machine

end Sys2Proof

namespace Sys2Proof.Proofs

open Sys2Proof.Machine

/-- Settles O19: the byte is appended at index 0, so one byte is scanned, too few for a frame, and the BYTE is one that
confirms nothing. -/
theorem evictingByteRestartsAccumulation : Obligations.EvictingByteRestartsAccumulation := by
  intro b t s hevict
  have hindex := appendIndex_eq_zero hevict
  have hshort : (scannedBytes s b t).length ≤ 10 := by
    rw [scannedBytes_length, hindex]
    decide
  have hexec := byteWithoutMatchKeepsBuffer b t s (not_frameIn_of_length_le hshort)
  rwa [hindex] at hexec

/-- Settles O37: a step stops where the transaction it runs faults, which only a CRC16 does, or where the decoder
rejects its request. -/
theorem stopsAreContractViolationsOrBadRequests : Obligations.StopsAreContractViolationsOrBadRequests := by
  intro s
  refine ⟨fun f hstep => ?_, fun r hstep => decode_error_of_step_refused hstep⟩
  obtain ⟨r, rest, i, hpending, hdecode, hexec⟩ := exec_fault_of_step_fault hstep
  obtain ⟨hf, start, count, seq, rfl, hout⟩ := exec_fault_cases hexec
  rw [eq_crc_of_decode_crc16 hdecode] at hpending
  exact ⟨hf, start, count, seq, rest, hpending, hout⟩

/-- Settles O35: by induction on the number of steps, each of them the idle step. -/
theorem idleBlockKeepsState : Obligations.IdleBlockKeepsState := by
  intro k s hpending
  induction k with
  | zero => rfl
  | succ k ih => rw [run_succ_of_next (step_idle hpending), ih]

end Sys2Proof.Proofs
end

section
/-! The reset and hazards family (70_reset_and_hazards.md): what a dutiful requester issues runs without a stop (R233), a
run of EOS (R240), and the empty buffer that RESET leaves (R230, R231). -/

namespace Sys2Proof.Machine

/-! ### The requester's duties -/

/-- A dutiful request encodes a transaction, which lies within its contract where it is a CRC16. -/
theorem exists_decode_of_dutifulRequest {r : Request} (h : dutifulRequest r = true) :
    ∃ i, decode r = .ok i ∧
      ∀ start count seq, i = .crc16 start count seq → start.toNat + count.toNat ≤ seq.length := by
  unfold dutifulRequest at h
  cases hdecode : decode r with
  | error why =>
    rw [hdecode] at h
    cases h
  | ok i =>
    refine ⟨i, rfl, ?_⟩
    rintro start count seq rfl
    rw [hdecode] at h
    exact of_decide_eq_true h

/-- A transaction that is no CRC16 outside its contract answers a next state. -/
theorem exists_next_of_exec {i : Instr}
    (hi : ∀ start count seq, i = .crc16 start count seq → start.toNat + count.toNat ≤ seq.length) (s : State) :
    ∃ u, exec i s = .next u := by
  rcases exec_cases i s with hnext | ⟨start, count, seq, hcrc, hout, -⟩
  · exact hnext
  · exact absurd hout (Nat.not_lt.mpr (hi start count seq hcrc))

/-- Taking a request is the step's (20_memory.md R51): the transaction itself leaves the requests to come. -/
theorem pending_of_exec {i : Instr} {s u : State} (h : exec i s = .next u) : u.pending = s.pending := by
  rcases exec_next_cases h with ⟨-, rfl⟩ | ⟨b, t, rfl, -, -⟩ | ⟨b, t, -, rfl, -, -⟩ | ⟨-, rfl⟩ | ⟨_, _, _, -, rfl⟩
  · rfl
  · exact pending_of_exec_byte h
  · exact pending_of_exec_byte h
  · rfl
  · rfl

theorem State.dutiful_iff_of_pending_eq_cons {s : State} {r : Request} {rest : List Request}
    (h : s.pending = r :: rest) :
    s.dutiful = true ↔ dutifulRequest r = true ∧ rest.all dutifulRequest = true := by
  rw [State.dutiful, h, List.all_cons, Bool.and_eq_true]

/-- One step on dutiful requests answers, and the requests it leaves are dutiful. -/
theorem exists_step_next_of_dutiful {s : State} (h : s.dutiful = true) :
    ∃ u, step s = .next u ∧ u.dutiful = true := by
  cases hpending : s.pending with
  | nil => exact ⟨s, step_idle hpending, h⟩
  | cons r rest =>
    obtain ⟨hr, hrest⟩ := (State.dutiful_iff_of_pending_eq_cons hpending).mp h
    obtain ⟨i, hdecode, hcontract⟩ := exists_decode_of_dutifulRequest hr
    obtain ⟨u, hexec⟩ := exists_next_of_exec hcontract (s.withPending rest)
    refine ⟨u, (step_ok hpending hdecode).trans hexec, ?_⟩
    rw [State.dutiful, pending_of_exec hexec]
    exact hrest

/-! ### End of stream -/

/-- A step on an EOS word takes it and emits `READ_FAIL`, whatever its `DATA` and `TIME` (30_encoding.md R63). -/
theorem step_of_eos_word {d : Byte} {t : Timestamp} {rest : List Request} {s : State}
    (h : s.pending = .inp (inWord 0b10#2 d t) :: rest) : step s = .next ((s.withPending rest).emit .readFail) :=
  step_ok h (decode_inWord_eos d t)

/-! ### The empty buffer -/

theorem State.buffer_eq_nil {s : State} (h : s.len = 0) : s.buffer = [] :=
  List.length_eq_zero_iff.mp (s.buffer_length.trans h)

/-- Two states with an empty buffer agree where their outputs and requests are the same: neither `BUF` nor `T_LAST` can
be observed (10_state.md R21, R24). -/
theorem State.Agree.of_len_eq_zero {s s' : State} (hlen : s.len = 0) (hlen' : s'.len = 0) (hout : s.out = s'.out)
    (hcrcOut : s.crcOut = s'.crcOut) (hpending : s.pending = s'.pending) : s.Agree s' where
  len := hlen.trans hlen'.symm
  buffer := (buffer_eq_nil hlen).trans (buffer_eq_nil hlen').symm
  time := fun hpos => absurd hlen (Nat.ne_of_gt hpos)
  out := hout
  crcOut := hcrcOut
  pending := hpending

/-- RESET leaves the outputs and the requests to come (70_reset_and_hazards.md R230), so what a second RESET
changes cannot be observed. -/
theorem State.unspecify_clear_agree (s : State) : s.unspecify.clear.Agree s.unspecify.clear.unspecify.clear :=
  .of_len_eq_zero rfl rfl rfl rfl rfl

theorem appendIndex_eq_zero_of_len_eq_zero {s : State} (h : s.len = 0) (t : Timestamp) : appendIndex s t = 0 :=
  Nat.le_zero.mp (h ▸ appendIndex_le_len s t)

end Sys2Proof.Machine

namespace Sys2Proof.Proofs

open Sys2Proof.Machine

/-- Settles O42: by induction on the number of steps; a step on dutiful requests answers and leaves dutiful requests. -/
theorem dutifulRequesterNeverStopsMachine : Obligations.DutifulRequesterNeverStopsMachine := by
  intro k
  induction k with
  | zero => exact fun s hdutiful => ⟨s, rfl, hdutiful⟩
  | succ k ih =>
    intro s hdutiful
    obtain ⟨u, hstep, hnext⟩ := exists_step_next_of_dutiful hdutiful
    rw [run_succ_of_next hstep]
    exact ih u hnext

/-- Settles O31: by induction on the words; the first step takes its word and emits, and the rest of the run starts from
there. -/
theorem eosRunDoesNotRefreshTime : Obligations.EosRunDoesNotRefreshTime := by
  intro ws rest
  induction ws with
  | nil =>
    rintro s rfl
    rw [List.length_nil, run_zero, List.replicate_zero, List.append_nil]
  | cons p ws ih =>
    intro s hpending
    rw [List.length_cons, run_succ_of_next (step_of_eos_word hpending), ih _ rfl, State.emit_out, List.append_assoc,
      List.replicate_succ]
    rfl

/-- Settles O32: the next state is the clear of what RESET left unspecified. A BYTE on its empty buffer appends at index
0, so it scans one byte, too few for a frame, and the byte it writes is `BUF[0]`. -/
theorem resetEmptiesBuffer : Obligations.ResetEmptiesBuffer := by
  intro s
  refine ⟨s.unspecify.clear, rfl, rfl, rfl, rfl, rfl, rfl, fun b t => ?_, _, rfl, s.unspecify_clear_agree⟩
  have hindex : appendIndex s.unspecify.clear t = 0 := appendIndex_eq_zero_of_len_eq_zero rfl t
  obtain ⟨u, hexec, hout, hlen⟩ := tenBytesOrFewerNeverConfirm b t s.unspecify.clear (by rw [hindex]; decide)
  obtain ⟨-, hbyte, -, htime, -⟩ := byteWritesOneBufferByte b t _ u hexec
  rw [evicted_len_eq_appendIndex, hindex] at hbyte
  rw [hindex] at hlen
  exact ⟨u, hexec, hlen, hbyte, htime, hout⟩

/-- Settles O41: the two states differ in what an empty buffer hides, so O40 applies to them. -/
theorem resetValuesCannotBeObserved : Obligations.ResetValuesCannotBeObserved := by
  intro k s m t d
  exact hiddenStateCannotBeObserved k _ _ (.of_len_eq_zero rfl rfl rfl rfl rfl)

end Sys2Proof.Proofs
end
